-- ==== Sys2Proof/Config.lean ====
section
/-! DEFINITION. The implementation parameters of the RC5 decoder core
(spec/00_scope.md R5, spec/10_state.md R26): fixed for a model, changed by no step.
The two OPEN parameters are constants without a body, so that no proof can learn a value of them
(log entry 7). The widths are also the widths of Word.lean's types. -/

namespace Sys2Proof

/-- FRAME_SAMPLES (R5): the number of samples of one transmission. -/
abbrev Config.frameSamples : Nat := 13

/-- CMD_WIDTH (R5): the command is ACC[5:0]. -/
abbrev Config.cmdWidth : Nat := 6

/-- ADDR_WIDTH (R5): the address is ACC[10:6]. -/
abbrev Config.addrWidth : Nat := 5

/-- TOG_WIDTH (R5): the toggle is ACC[11]. -/
abbrev Config.togWidth : Nat := 1

/-- ACC_WIDTH (R5, the spec's decision D3). -/
abbrev Config.accWidth : Nat := 16

/-- CNT_WIDTH (R5, the spec's decision D4). -/
abbrev Config.cntWidth : Nat := 4

/-- T_SAMPLE (R5, R26): OPEN, the period between TICKs, in a time unit of the host's choosing
(DESIGN CHOICE, log entry 7). No rule of the block reads it. -/
opaque Config.tSample : Nat

/-- FIRST_TICK_DELAY (R5, R26): OPEN, the delay from arming to the first TICK, in the unit of
`Config.tSample` (DESIGN CHOICE, log entry 7). No rule of the block reads it. -/
opaque Config.firstTickDelay : Nat

end Sys2Proof
end

