-- ==== Sys2Proof/Word.lean ====
section
/-! DEFINITION. The words of the RC5 decoder core: the event word (spec/30_encoding.md R39) and the
multi-bit registers and fields (spec/10_state.md R12, spec/41_bit_sampler.md R57). All are
unsigned, bit 0 least significant (spec/00_scope.md R6). The on/off registers EDGE_EN, EDGE_PEND,
TMR_EN and LAST_VALID are `Bool`s of `Machine.Block`, true for 1 (log entry 8). The widths are written
as numerals; Laws/Decode.lean shows that they are Config's. -/

namespace Sys2Proof

/-- One input event word `ev`, delivered whole (R39). -/
abbrev EventWord := BitVec 8

/-- A 1-bit data value: the level L of TICK, a sample, the toggle, LAST_TOG. -/
abbrev Bit := BitVec 1

/-- The width of ACC (R13). -/
abbrev Acc := BitVec 16

/-- The width of CNT (R14). -/
abbrev Cnt := BitVec 4

/-- A 6-bit command (R57; LAST_CMD, R18). -/
abbrev Cmd := BitVec 6

/-- A 5-bit address (R57). -/
abbrev Addr := BitVec 5

end Sys2Proof
end

