-- ==== Sys2Proof/Syntax.lean ====
section
/-! DEFINITION. The instructions of the block are its four input events, one constructor per row of
spec/opcode_table.json (spec/10_state.md R27, spec/30_encoding.md R40). The sub-operations
(FALL.ARM, FALL.LATCH, TICK.IGNORED, TICK.SAMPLE, TICK.FRAME) are chosen by the state, so they are
no constructors. -/

namespace Sys2Proof

/-- An input event (R27). -/
inductive Instr where
  /-- NOP: nothing happened, an idle step (R69). -/
  | nop
  /-- FALL: a high-to-low transition on the sensor line (R48). -/
  | fall
  /-- TICK(L): the periodic timing source expired; `level` is the line's level then (R53, R28). -/
  | tick (level : Bit)
  /-- RESET: synchronous reset of the block (R70). -/
  | reset
deriving DecidableEq, Repr

end Sys2Proof
end

