-- ==== Sys2Proof/WellFormed.lean ====
section
/-! DEFINITION. Well-formedness. An `Instr` has one operand, L, and its type is its range
(spec/30_encoding.md R41), so every `Instr` is well formed. What can be ill formed is an EVENT WORD:
the three checks are the three bullets of R43 read positively, written over the word's number and
independently of Decode.lean's fields. -/

namespace Sys2Proof

/-- R41: the only operand is 1 bit wide and its type admits nothing else. -/
def Instr.wellFormed : Instr → Bool
  | .nop | .fall | .reset => true
  | .tick level => decide (level.toNat < 2)

/-- R43, first bullet: ev[7:4] is 0. -/
def reservedBitsClear (ev : EventWord) : Bool := decide (ev.toNat / 16 = 0)

/-- R43, second bullet: CODE = ev[2:0] is none of 0b011, 0b100, 0b101, 0b110. -/
def codeAssigned (ev : EventWord) : Bool := decide (ev.toNat % 8 ∉ [3, 4, 5, 6])

/-- R43, third bullet: with CODE 0b000, 0b001 or 0b111, the level bit ev[3] is 0. -/
def levelOnlyOnTick (ev : EventWord) : Bool :=
  decide (ev.toNat % 8 ∈ [0, 1, 7] → ev.toNat / 8 % 2 = 0)

/-- The word is none of the reserved words of R43. -/
def wellFormedWord (ev : EventWord) : Bool :=
  reservedBitsClear ev && codeAssigned ev && levelOnlyOnTick ev

/-- R43: the reserved event words. -/
abbrev ReservedWord (ev : EventWord) : Prop :=
  ev.toNat / 16 ≠ 0 ∨ ev.toNat % 8 ∈ [3, 4, 5, 6] ∨
    (ev.toNat % 8 ∈ [0, 1, 7] ∧ ev.toNat / 8 % 2 = 1)

end Sys2Proof
end

