-- ==== Sys2Proof/Decode.lean ====
section
/-! DEFINITION. The decoder of spec/30_encoding.md R42, total on event words, and the encoder, from
the format EV8 of R39 and the codes of R40. One byte is one event (R44), so decoding a byte
sequence is decoding each byte (R45, last sentence). -/

namespace Sys2Proof

/-- Why a word is not decoded. -/
inductive DecodeReject where
  /-- R43: the word is reserved. -/
  | reservedEvent (ev : EventWord)
deriving DecidableEq, Repr

/-- RSVD = ev[7:4] (R39). -/
def rsvdField (ev : EventWord) : BitVec 4 := ev.extractLsb' 4 4

/-- L = ev[3] (R39, R41). -/
def levelField (ev : EventWord) : Bit := ev.extractLsb' 3 1

/-- CODE = ev[2:0] (R39). -/
def codeField (ev : EventWord) : BitVec 3 := ev.extractLsb' 0 3

/-- An event that has no operand requires ev[3] = 0 (R41, R42). -/
def withoutLevel (ev : EventWord) (i : Instr) : Except DecodeReject Instr :=
  if levelField ev = 0 then .ok i else .error (.reservedEvent ev)

/-- The decoding half of R42's `step`, branch by branch. -/
def decode (ev : EventWord) : Except DecodeReject Instr :=
  if rsvdField ev ≠ 0 then .error (.reservedEvent ev)
  else if codeField ev = 0b000 then withoutLevel ev .nop
  else if codeField ev = 0b001 then withoutLevel ev .fall
  else if codeField ev = 0b010 then .ok (.tick (levelField ev))
  else if codeField ev = 0b111 then withoutLevel ev .reset
  else .error (.reservedEvent ev)

/-- Decoding a sequence of event words, one event a byte (R44); the first reserved word rejects it. -/
def decodeTrace : List EventWord → Except DecodeReject (List Instr)
  | [] => .ok []
  | ev :: rest =>
    match decode ev with
    | .error r => .error r
    | .ok i =>
      match decodeTrace rest with
      | .error r => .error r
      | .ok is => .ok (i :: is)

/-- The format EV8 (R39): RSVD above L above CODE. -/
def eventWord (rsvd : BitVec 4) (level : Bit) (code : BitVec 3) : EventWord :=
  rsvd ++ level ++ code

/-- The word of an event, from the codes of R40. -/
def encode : Instr → EventWord
  | .nop => eventWord 0b0000 0 0b000
  | .fall => eventWord 0b0000 0 0b001
  | .tick level => eventWord 0b0000 level 0b010
  | .reset => eventWord 0b0000 0 0b111

/-- R45: "The encoded form of a trace is the sequence of its event words, in order." -/
def encodeTrace (is : List Instr) : List EventWord := is.map encode

/-- The event word that the opcode table's numbering gives: the low `nbits` bits of `w`, zeros above,
eight bits being the longest event (R39; log entry 12). -/
def tableWord (nbits w : Nat) : EventWord := BitVec.ofNat 8 (w % 2 ^ nbits)

/-- The instruction the decoder reads from a word numbered as spec/opcode_table.json numbers it. -/
def decodeTableWord (nbits w : Nat) : Option Instr :=
  match decode (tableWord nbits w) with
  | .ok i => some i
  | .error _ => none

end Sys2Proof
end

