-- ==== Sys2Proof/Machine/State.lean ====
section
/-! DEFINITION. The state of the RC5 decoder core: the eight registers of spec/10_state.md R12 (`Block`),
beside the model's two interface lists: the events that wait and the events emitted (log entries 1
and 2). Here too are the output events (R29), the decoded frame (spec/41_bit_sampler.md R57), the
phases (R22) and the reasons a step can stop. -/

namespace Sys2Proof.Machine

/-- The output events (R29). -/
inductive OutEvent where
  /-- TIMER_START: the timing source restarts from zero phase. -/
  | timerStart
  /-- TIMER_STOP: the timing source stops and returns to idle. -/
  | timerStop
  /-- FRAME(address, command, toggle, repeat): one per frame; `rep` is true for the repeat verdict. -/
  | frame (address : Addr) (command : Cmd) (toggle : Bit) (rep : Bool)
  /-- DISPATCH(command): the decoded-command event, for the new verdict only. -/
  | dispatch (command : Cmd)
deriving DecidableEq, Repr

/-- The block's state S: exactly the registers of R12. -/
structure Block where
  /-- ACC, the BitAccumulator (R13). -/
  acc : Acc
  /-- CNT, the SampleCount (R14). -/
  cnt : Cnt
  /-- EDGE_EN, the Edge Detector's enable (R15). -/
  edgeEn : Bool
  /-- EDGE_PEND, the pending edge-notification flag (R16). -/
  edgePend : Bool
  /-- TMR_EN, the periodic sampler is running (R17). -/
  tmrEn : Bool
  /-- LAST_CMD, RepeatState.lastCommand (R18). -/
  lastCmd : Cmd
  /-- LAST_TOG, RepeatState.lastToggle (R19). -/
  lastTog : Bit
  /-- LAST_VALID, RepeatState holds an accepted frame (R20). -/
  lastValid : Bool
deriving DecidableEq, Repr

/-- R24: the value of every register after RESET and at power-on. -/
def Block.reset : Block where
  acc := 0
  cnt := 0
  edgeEn := true
  edgePend := false
  tmrEn := false
  lastCmd := 0
  lastTog := 0
  lastValid := false

/-- The phases of R22. The phase is computed (`Machine.phase`), not stored. -/
inductive Phase where
  | listen
  | sampling
  | full
  | anomalous
deriving DecidableEq, Repr

/-- The DecodedFrame triplet (R10, R57). -/
structure DecodedFrame where
  address : Addr
  command : Cmd
  toggle : Bit
deriving DecidableEq, Repr

/-- What one operation does to the block: the `Next(S', outs)` of spec/00_scope.md R9. -/
structure Effect where
  /-- S', the registers after the step. -/
  block : Block
  /-- `outs`, the step's output events in the order emitted. -/
  outs : List OutEvent
deriving DecidableEq, Repr

/-- The machine: the block, with the host's side of its interface as data. -/
structure State where
  /-- The block's registers (R12). -/
  block : Block
  /-- The event words delivered and not yet taken, oldest first (R27, spec/20_memory.md R35).
  The model's own field (DESIGN CHOICE, log entry 1). -/
  inputs : List EventWord
  /-- Every output event emitted so far, oldest first (R29, spec/42_repeat_suppression.md R67).
  The model's own field (DESIGN CHOICE, log entry 2). -/
  outputs : List OutEvent
deriving DecidableEq, Repr

/-- The machine right after the power-on RESET (R24, spec/70_reset_and_hazards.md R82): no event
waits and none was emitted (log entry 6). -/
def State.reset : State where
  block := Block.reset
  inputs := []
  outputs := []

/-- "There is no Fault outcome" (spec/00_scope.md R9; spec/60_exceptions.md R71): no constructor, raised
by nobody (log entry 5). -/
inductive Fault where
deriving DecidableEq, Repr

/-- Why a step is refused. -/
inductive Refusal where
  /-- Raised by `exec`'s arm of an instruction that has no meaning yet; no arm of this model raises it.
  Safe: it stops the run. -/
  | notModelled (mnemonic : String)
  /-- ReservedEvent(ev): raised by `step` for an event word that spec/30_encoding.md R43 reserves.
  Safe: a run that contains it satisfies no claim (log entry 4). -/
  | reservedEvent (ev : EventWord)
deriving DecidableEq, Repr

end Sys2Proof.Machine
end

