-- ==== Sys2Proof/Machine/Operands.lean ====
section
/-! DEFINITION. The operand L of TICK (spec/10_state.md R28) and the fields of a frame word
(spec/41_bit_sampler.md R57). -/

namespace Sys2Proof.Machine

/-- R28: the line is "asserted active" (carrier present) when its electrical level is low. -/
def lineAsserted (level : Bit) : Bool := level == 0

/-- R28, in the source's words: the reading is inverted, so that a line that is not asserted gives the
sample 1 and an asserted line the sample 0. -/
def sampleBit (level : Bit) : Bit := if lineAsserted level then 0 else 1

/-- R57's `decode(w)`, for a frame word of any width: address w[10:6], command w[5:0], toggle w[11]. -/
def decodeFrame {n : Nat} (w : BitVec n) : DecodedFrame where
  address := w.extractLsb' 6 5
  command := w.extractLsb' 0 6
  toggle := w.extractLsb' 11 1

end Sys2Proof.Machine
end

