-- ==== Sys2Proof/Machine/Flags.lean ====
section
/-! DEFINITION. What is computed from the registers and not stored: the repeat verdict
(spec/42_repeat_suppression.md R63), the output levels (spec/10_state.md R29), the enables of the
two interrupt sources (spec/60_exceptions.md R72) and the phase (spec/10_state.md R22). -/

namespace Sys2Proof.Machine

/-- `rep` of R63: true is the verdict "repeat", false the verdict "new". The address takes no part. -/
def repeatVerdict (f : DecodedFrame) (b : Block) : Bool :=
  b.lastValid && f.command == b.lastCmd && f.toggle == b.lastTog

/-- The output level `edge_irq_en` (R29); it is also what enables the edge source (R72). -/
def edgeIrqEn (b : Block) : Bool := b.edgeEn

/-- The output level `timer_run` (R29); it is also what enables the tick source (R72). -/
def timerRun (b : Block) : Bool := b.tmrEn

/-- The samples of the transmission are all taken: CNT >= 13 (R22, R53; 14 and 15 included, R14). -/
def samplesDone (b : Block) : Bool := decide (Config.frameSamples ≤ b.cnt.toNat)

/-- The phase of a state, by the table of R22. -/
def phase (b : Block) : Phase :=
  match b.edgeEn, b.tmrEn with
  | true, false => .listen
  | false, true => if samplesDone b then .full else .sampling
  | _, _ => .anomalous

end Sys2Proof.Machine
end

