-- ==== Sys2Proof/Machine/Ops.lean ====
section
/-! DEFINITION. The shared operations: how a step takes its event and how an operation's effect becomes
the next state. The block has no memory and no exception entry (spec/20_memory.md R30,
spec/60_exceptions.md R71): taking an interrupt IS taking its event, and `complete` is the whole of
entry, handler and return (R74, R75). -/

namespace Sys2Proof.Machine

/-- One step's effect, atomically: every register written and every output event emitted in one
transition (spec/20_memory.md R34; spec/60_exceptions.md R74). -/
def complete (e : Effect) (s : State) : Host.Outcome State Fault Refusal :=
  .next { s with block := e.block, outputs := s.outputs ++ e.outs }

/-- An operation with "no state change, no output" (R55, R69). -/
def unchanged (b : Block) : Effect where
  block := b
  outs := []

/-- The oldest waiting event word and the state without it: one word a step, in order
(spec/20_memory.md R35, spec/30_encoding.md R42). -/
def takeEvent (s : State) : Option (EventWord × State) :=
  match s.inputs with
  | [] => none
  | ev :: rest => some (ev, { s with inputs := rest })

/-- No event waits: the block is idle and keeps every register (spec/60_exceptions.md R78;
DESIGN CHOICE, log entry 3). -/
def idle (s : State) : Host.Outcome State Fault Refusal := .next s

/-- R43: a reserved word is refused, with the word as the reason (log entry 4). -/
def refuseReserved (ev : EventWord) : Host.Outcome State Fault Refusal :=
  .refused (.reservedEvent ev)

/-- The host delivers event words: they wait behind those that already do (spec/20_memory.md R35;
spec/60_exceptions.md R73, R79; log entries 1 and 9). -/
def deliver (evs : List EventWord) (s : State) : State := { s with inputs := s.inputs ++ evs }

/-- The accumulator's step in TICK.SAMPLE (R54), for an accumulator of any width: "The shift comes first
and the OR second", the shift only if the accumulator is nonzero, truncated to the width (R7). -/
def shiftIn {n : Nat} (level : Bit) (acc : BitVec n) : BitVec n :=
  let shifted := if acc = 0 then acc else acc <<< 1
  shifted ||| (sampleBit level).setWidth n

end Sys2Proof.Machine
end

