-- ==== Sys2Proof/Machine/RepeatSuppression.lean ====
section
/-! DEFINITION. Repeat Suppression: SUPPRESS, the last part of TICK.FRAME
(spec/42_repeat_suppression.md). -/

namespace Sys2Proof.Machine

/-- The effect of the repeat verdict (R64): FRAME and nothing else. -/
def suppressRepeat (f : DecodedFrame) (b : Block) : Effect where
  block := b
  outs := [.frame f.address f.command f.toggle true]

/-- The effect of the new verdict (R65): RepeatState takes the frame; FRAME, then one DISPATCH. -/
def suppressNew (f : DecodedFrame) (b : Block) : Effect where
  block := { b with lastCmd := f.command, lastTog := f.toggle, lastValid := true }
  outs := [.frame f.address f.command f.toggle false, .dispatch f.command]

/-- SUPPRESS(address, command, toggle) (R63 to R65). -/
def suppress (f : DecodedFrame) (b : Block) : Effect :=
  if repeatVerdict f b then suppressRepeat f b else suppressNew f b

end Sys2Proof.Machine
end

