-- ==== Sys2Proof/Machine/BitSampler.lean ====
section
/-! DEFINITION. The Bit Sampler and frame extractor: the event TICK (spec/41_bit_sampler.md). -/

namespace Sys2Proof.Machine

/-- TICK.IGNORED (R55): a tick while the sampler is stopped. -/
def tickIgnored (b : Block) : Effect := unchanged b

/-- TICK.SAMPLE (R54): one bit into ACC, one more in CNT (modulo 16, R7). -/
def tickSample (level : Bit) (b : Block) : Effect where
  block := { b with acc := shiftIn level b.acc, cnt := b.cnt + 1 }
  outs := []

/-- TICK.FRAME (R56): TIMER_STOP, the sampler stopped and cleared, the Edge Detector re-enabled, and the
frame word ACC handed to SUPPRESS in the same step. The line is not read. -/
def tickFrame (b : Block) : Effect :=
  let verdict := suppress (decodeFrame b.acc) b
  { block := { verdict.block with
      tmrEn := false, cnt := 0, acc := 0, edgeEn := true, edgePend := false }
    outs := .timerStop :: verdict.outs }

/-- TICK routing (R53): exactly one of the three operations. -/
def tickEffect (level : Bit) (b : Block) : Effect :=
  if timerRun b = false then tickIgnored b
  else if samplesDone b = false then tickSample level b
  else tickFrame b

/-- The meaning of TICK(L) (R53 to R56, R63 to R65). -/
def execTick (level : Bit) (s : State) : Host.Outcome State Fault Refusal :=
  complete (tickEffect level s.block) s

end Sys2Proof.Machine
end

