-- ==== Sys2Proof/Machine/Control.lean ====
section
/-! DEFINITION. The control events NOP and RESET (spec/43_control.md). -/

namespace Sys2Proof.Machine

/-- The meaning of NOP (R69): an idle step. -/
def execNop (s : State) : Host.Outcome State Fault Refusal := complete (unchanged s.block) s

/-- The effect of RESET (R70): every register to its reset value (R24), whatever the phase; no output. -/
def resetEffect : Effect where
  block := Block.reset
  outs := []

/-- The meaning of RESET (R70). -/
def execReset (s : State) : Host.Outcome State Fault Refusal := complete resetEffect s

end Sys2Proof.Machine
end

