-- ==== Sys2Proof/Machine/EdgeDetector.lean ====
section
/-! DEFINITION. The Edge Detector: the event FALL (spec/40_edge_detector.md). -/

namespace Sys2Proof.Machine

/-- FALL.ARM (R49): arm the Bit Sampler. ACC becomes the implicit start bit; LAST_* is not touched. -/
def fallArm (b : Block) : Effect where
  block := { b with edgeEn := false, edgePend := false, acc := 1, cnt := 0, tmrEn := true }
  outs := [.timerStart]

/-- FALL.LATCH (R50): the edge only sets EDGE_PEND. -/
def fallLatch (b : Block) : Effect where
  block := { b with edgePend := true }
  outs := []

/-- FALL routing (R48): EDGE_EN alone decides. -/
def fallEffect (b : Block) : Effect := if b.edgeEn then fallArm b else fallLatch b

/-- The meaning of FALL (R48 to R50). -/
def execFall (s : State) : Host.Outcome State Fault Refusal := complete (fallEffect s.block) s

end Sys2Proof.Machine
end

