-- ==== Sys2Proof/Machine/Dispatch.lean ====
section
/-! DEFINITION. The dispatch: one arm per input event (spec/30_encoding.md R42). -/

namespace Sys2Proof.Machine

def exec (i : Instr) (s : State) : Host.Outcome State Fault Refusal :=
  match i with
  | .nop => Sys2Proof.Machine.execNop s
  | .fall => Sys2Proof.Machine.execFall s
  | .tick level => Sys2Proof.Machine.execTick level s
  | .reset => Sys2Proof.Machine.execReset s

end Sys2Proof.Machine
end

