-- ==== Sys2Proof/Machine/Step.lean ====
section
/-! DEFINITION. One step (spec/30_encoding.md R42): take the oldest waiting event word, decode it, perform
its rule. A reserved word is refused (R43); with no word waiting the step is idle (log entry 3). -/

namespace Sys2Proof.Machine

/-- R42's `step(S, ev)`, with `ev` the oldest word of `inputs` (log entry 1). -/
def step (s : State) : Host.Outcome State Fault Refusal :=
  match takeEvent s with
  | none => idle s
  | some (ev, s') =>
    match decode ev with
    | .error (.reservedEvent ev) => refuseReserved ev
    | .ok i => exec i s'

/-- The state in which the very next step takes the given word: it stands first in `inputs`, before any
word that already waits (log entry 12). -/
def State.withFetchWord (s : State) (nbits w : Nat) : State :=
  { s with inputs := tableWord nbits w :: s.inputs }

end Sys2Proof.Machine
end

