-- ==== Sys2Proof/Machine/Timing.lean ====
section
/-! DEFINITION. The host's timing of TICKs (spec/60_exceptions.md R77, spec/70_reset_and_hazards.md R84 to
R86). No rule of the block reads time (R90): nothing here is used by `step`. Times are natural
numbers of one unit (log entry 7); half a bit period is avoided by doubling (log entry 13). -/

namespace Sys2Proof.Machine

/-- R77, R85: when tick `i` (counted from 1) comes after the arming edge. -/
def tickTime (firstTickDelay tSample i : Nat) : Nat := firstTickDelay + (i - 1) * tSample

/-- R62: when FRAME comes after the arming edge, the 14th tick being the framing one. -/
def frameTime (firstTickDelay tSample : Nat) : Nat :=
  tickTime firstTickDelay tSample (Config.frameSamples + 1)

/-- R85, doubled: tick `i` lands in the first half of wire bit `i`. Bit `i` begins `i` bit periods after
the start of bit 0, and the arming edge comes half a period into bit 0. -/
abbrev TickInFirstHalf (bitPeriod firstTickDelay tSample i : Nat) : Prop :=
  2 * (i * bitPeriod) ≤ bitPeriod + 2 * tickTime firstTickDelay tSample i ∧
    bitPeriod + 2 * tickTime firstTickDelay tSample i < 2 * (i * bitPeriod) + bitPeriod

/-- R84 and R85 for a bit period: the tick period is the bit period and the first tick lands in the window
T/2 ≤ FIRST_TICK_DELAY < T. -/
abbrev TimingMatches (bitPeriod firstTickDelay tSample : Nat) : Prop :=
  tSample = bitPeriod ∧ bitPeriod ≤ 2 * firstTickDelay ∧ firstTickDelay < bitPeriod

/-- R83, R84, R85: the host's OPEN configuration fits a remote with this bit period. A premise for claims
about what the line carried; the block does not check it. -/
abbrev HostTimingMatches (bitPeriod : Nat) : Prop :=
  TimingMatches bitPeriod Config.firstTickDelay Config.tSample

end Sys2Proof.Machine
end

