-- ==== Sys2Proof/Machine/Trace.lean ====
section
/-! DEFINITION. Event traces: the pseudo-events of spec/30_encoding.md R46 with their expansions, and the
written form of a trace (R45). Text is a list of characters. What R45 leaves open about blanks,
commas, numerals and line ends is log entry 11. -/

namespace Sys2Proof.Machine

/-- A line of a trace: an event (R45) or a pseudo-event (R46). -/
inductive TraceLine where
  | event (i : Instr)
  | samples (levels : List Bit)
  | frame13 (levels : List Bit)
  | send (toggle : Bit) (address : Addr) (command : Cmd)
deriving DecidableEq, Repr

/-- R46: FRAME13 is written with exactly the 13 levels b1 to b13; SAMPLES with at least b1. -/
def lineWellFormed : TraceLine → Bool
  | .event i => i.wellFormed
  | .samples levels => !levels.isEmpty
  | .frame13 levels => levels.length == Config.frameSamples
  | .send _ _ _ => true

/-- R46, SAMPLES: one TICK a level, in order. -/
def sampleTicks (levels : List Bit) : List Instr := levels.map .tick

/-- R46, FRAME13: arm, sample, and the framing tick, whose level the table writes as 1. -/
def frameEvents (levels : List Bit) : List Instr := .fall :: (sampleTicks levels ++ [.tick 1])

/-- R46, SEND: the 13 levels 1 t a[4] ... a[0] c[5] ... c[0]; the second start bit is 1 (K3). -/
def sendLevels (toggle : Bit) (address : Addr) (command : Cmd) : List Bit :=
  [1, toggle,
   address.extractLsb' 4 1, address.extractLsb' 3 1, address.extractLsb' 2 1,
   address.extractLsb' 1 1, address.extractLsb' 0 1,
   command.extractLsb' 5 1, command.extractLsb' 4 1, command.extractLsb' 3 1,
   command.extractLsb' 2 1, command.extractLsb' 1 1, command.extractLsb' 0 1]

/-- R46, SEND, through FRAME13. -/
def sendEvents (toggle : Bit) (address : Addr) (command : Cmd) : List Instr :=
  frameEvents (sendLevels toggle address command)

/-- R46: the events a line stands for. -/
def expandLine : TraceLine → List Instr
  | .event i => [i]
  | .samples levels => sampleTicks levels
  | .frame13 levels => frameEvents levels
  | .send toggle address command => sendEvents toggle address command

/-- R45, R46: a trace's lines expand one after the other before encoding. -/
def expandTrace (lines : List TraceLine) : List Instr := lines.flatMap expandLine

/-- R45: the written form of an event, upper case. -/
def eventText : Instr → List Char
  | .nop => ['N', 'O', 'P']
  | .fall => ['F', 'A', 'L', 'L']
  | .tick level => if level = 0 then ['T', 'I', 'C', 'K', ' ', '0'] else ['T', 'I', 'C', 'K', ' ', '1']
  | .reset => ['R', 'E', 'S', 'E', 'T']

/-- R45: a trace is written one event per line. Every line is ended by a line feed (DESIGN CHOICE, log entry
11). -/
def traceText : List Instr → List Char
  | [] => []
  | i :: rest => eventText i ++ '\n' :: traceText rest

/-- R45: text from `;` to the end of the line is a comment. -/
def withoutComment (line : List Char) : List Char := line.takeWhile (· != ';')

/-- The tokens of a line's text: blanks separate, a comma stands alone (log entry 11). `word` holds the
characters of the token being read. -/
def tokensFrom (word : List Char) : List Char → List (List Char)
  | [] => if word.isEmpty then [] else [word]
  | c :: rest =>
    if c = ' ' ∨ c = '\t' then
      if word.isEmpty then tokensFrom [] rest else word :: tokensFrom [] rest
    else if c = ',' then
      if word.isEmpty then [','] :: tokensFrom [] rest else word :: [','] :: tokensFrom [] rest
    else tokensFrom (word ++ [c]) rest

/-- A level token: `0` or `1` (R45, R46). -/
def levelToken (token : List Char) : Option Bit :=
  if token = ['0'] then some 0 else if token = ['1'] then some 1 else none

/-- Level tokens, each valid. -/
def levelTokens : List (List Char) → Option (List Bit)
  | [] => some []
  | token :: rest =>
    match levelToken token, levelTokens rest with
    | some level, some levels => some (level :: levels)
    | _, _ => none

/-- A decimal numeral, leading zeros allowed, continued from `value` (DESIGN CHOICE, log entry 11). -/
def decimalFrom (value : Nat) : List Char → Option Nat
  | [] => some value
  | c :: rest =>
    if c.isDigit then decimalFrom (value * 10 + (c.toNat - '0'.toNat)) rest else none

/-- A decimal numeral token below `bound`. -/
def numeralToken (bound : Nat) (token : List Char) : Option Nat :=
  if token.isEmpty then none
  else
    match decimalFrom 0 token with
    | some value => if value < bound then some value else none
    | none => none

/-- SEND's operands `t, a, c` with the ranges of R46. -/
def sendTokens : List (List Char) → Option TraceLine
  | [t, [','], a, [','], c] =>
    match numeralToken 2 t, numeralToken 32 a, numeralToken 64 c with
    | some t, some a, some c =>
      some (.send (BitVec.ofNat 1 t) (BitVec.ofNat 5 a) (BitVec.ofNat 6 c))
    | _, _, _ => none
  | _ => none

/-- A line that is not blank, from its mnemonic and its operand tokens (R45, R46). -/
def lineOfTokens (mnemonic : List Char) (operands : List (List Char)) : Option TraceLine :=
  if mnemonic = ['N', 'O', 'P'] then
    if operands.isEmpty then some (.event .nop) else none
  else if mnemonic = ['F', 'A', 'L', 'L'] then
    if operands.isEmpty then some (.event .fall) else none
  else if mnemonic = ['R', 'E', 'S', 'E', 'T'] then
    if operands.isEmpty then some (.event .reset) else none
  else if mnemonic = ['T', 'I', 'C', 'K'] then
    match operands with
    | [token] => (levelToken token).map fun level => .event (.tick level)
    | _ => none
  else if mnemonic = ['S', 'A', 'M', 'P', 'L', 'E', 'S'] then
    (levelTokens operands).map .samples
  else if mnemonic = ['F', 'R', 'A', 'M', 'E', '1', '3'] then
    (levelTokens operands).map .frame13
  else if mnemonic = ['S', 'E', 'N', 'D'] then sendTokens operands
  else none

/-- One line of text: no line for a blank one, a well-formed trace line, or `none` for text that R45 and
R46 do not give a meaning. -/
def parseLine (line : List Char) : Option (List TraceLine) :=
  match tokensFrom [] (withoutComment line) with
  | [] => some []
  | mnemonic :: operands =>
    match lineOfTokens mnemonic operands with
    | some parsed => if lineWellFormed parsed then some [parsed] else none
    | none => none

/-- The text of a trace, line by line; `line` holds the characters of the line being read. R45 says only
"one event per line": that the line feed alone ends a line, that the last line need not be ended and
that a carriage return is an ordinary character is the model's choice (DESIGN CHOICE, log entry 11). -/
def parseTraceFrom (line : List Char) : List Char → Option (List TraceLine)
  | [] => parseLine line
  | c :: rest =>
    if c = '\n' then
      match parseLine line, parseTraceFrom [] rest with
      | some here, some later => some (here ++ later)
      | _, _ => none
    else parseTraceFrom (line ++ [c]) rest

/-- R45: the text of a trace. -/
def parseTrace (text : List Char) : Option (List TraceLine) := parseTraceFrom [] text

end Sys2Proof.Machine
end

