-- ==== Sys2Proof/Safety.lean ====
section
/-! DEFINITION. What a safe run is, in the terms the claims use: runs of the machine, the invariants of
spec/10_state.md R23, the host's duty about TICKs (spec/60_exceptions.md R79) and the counting of
events and outputs (spec/41_bit_sampler.md R62). -/

namespace Sys2Proof.Safety

open Sys2Proof.Machine

/-- `k` steps of the machine behind the host's interface. A refused step ends the run: "a run that
contains a refused step satisfies no claim" (spec/30_encoding.md R43). -/
abbrev runs (k : Nat) (s : State) : Host.Outcome State Fault Refusal :=
  Host.Core.run Sys2Proof.core k s

/-- R23, first bullet: the LISTEN invariant. -/
abbrev ListenInv (b : Block) : Prop :=
  b.edgeEn = true ∧ b.tmrEn = false ∧ b.cnt = 0 ∧ b.acc = 0 ∧ b.edgePend = false

/-- R23, second bullet: a sequence is in flight with CNT = k samples taken. -/
abbrev SequenceInv (b : Block) : Prop :=
  b.edgeEn = false ∧ b.tmrEn = true ∧ b.cnt.toNat ≤ Config.frameSamples ∧
    2 ^ b.cnt.toNat ≤ b.acc.toNat ∧ b.acc.toNat < 2 ^ (b.cnt.toNat + 1)

/-- R23, third bullet: while no frame is held, RepeatState is at its reset values. -/
abbrev RepeatInv (b : Block) : Prop :=
  b.lastValid = false → b.lastCmd = 0 ∧ b.lastTog = 0

/-- R23: what every reachable state satisfies. -/
abbrev Inv (b : Block) : Prop := (ListenInv b ∨ SequenceInv b) ∧ RepeatInv b

/-- The TICK events of a list of events. -/
def tickCount : List Instr → Nat
  | [] => 0
  | .tick _ :: rest => tickCount rest + 1
  | _ :: rest => tickCount rest

/-- The FRAME events of a list of outputs (R29). -/
def frameCount : List OutEvent → Nat
  | [] => 0
  | .frame _ _ _ _ :: rest => frameCount rest + 1
  | _ :: rest => frameCount rest

/-- The commands of the DISPATCH events of a list of outputs, in order (R29). -/
def dispatched : List OutEvent → List Cmd
  | [] => []
  | .dispatch command :: rest => command :: dispatched rest
  | _ :: rest => dispatched rest

/-- R79: the host delivers TICKs only while `timer_run` = 1, along the run of the events. -/
def ticksOnlyWhileRunning : State → List Instr → Bool
  | _, [] => true
  | s, i :: rest =>
    let allowed := match i with
      | .tick _ => timerRun s.block
      | _ => true
    match exec i s with
    | .next t => allowed && ticksOnlyWhileRunning t rest
    | _ => allowed

/-- The event performs FALL.ARM (R48, R49). -/
abbrev Arms (i : Instr) (b : Block) : Prop := i = .fall ∧ b.edgeEn = true

/-- The event performs FALL.LATCH (R48, R50). -/
abbrev Latches (i : Instr) (b : Block) : Prop := i = .fall ∧ b.edgeEn = false

/-- The event performs TICK.SAMPLE (R53, R54). -/
abbrev Samples (i : Instr) (b : Block) : Prop :=
  (∃ level, i = .tick level) ∧ b.tmrEn = true ∧ b.cnt.toNat < 13

/-- The event performs TICK.FRAME (R53, R56). -/
abbrev Frames (i : Instr) (b : Block) : Prop :=
  (∃ level, i = .tick level) ∧ b.tmrEn = true ∧ 13 ≤ b.cnt.toNat

/-- The frame in ACC repeats the last accepted one (R57, R63), over the numbers of ACC and LAST_*. -/
abbrev RepeatsLast (b : Block) : Prop :=
  b.lastValid = true ∧ b.acc.toNat &&& 0x3F = b.lastCmd.toNat ∧
    (b.acc.toNat >>> 11) &&& 0x1 = b.lastTog.toNat

end Sys2Proof.Safety
end

