-- ==== Sys2Proof/Certificates/Slice0/Obligations.lean ====
section
/-! DEFINITION. The statements for the provers. Each docstring names the rule of spec/ it formalises.

How the rules' words read here: a step's output events are what it appends to `outputs` (the model's
own field, log entry 2); a step takes the oldest word of `inputs` (the model's own field, log entry
1). An equation `exec i s = .next t` says the whole next state, so it is the frame as well: the
registers it does not name, and the waiting words, are unchanged. The block has no memory
(spec/20_memory.md R30), so no frame speaks of any. -/

open Sys2Proof Sys2Proof.Machine Sys2Proof.Safety

/-! ## Encoding -/

/-- R40: the five event words decode to their events, no other word does, and the reserved codes decode
to nothing. -/
def Obligations.EventWordsDecodeAsTabled : Prop :=
  (∀ ev, decode ev = .ok .nop ↔ ev = 0x00) ∧
  (∀ ev, decode ev = .ok .fall ↔ ev = 0x01) ∧
  (∀ ev, decode ev = .ok (.tick 0) ↔ ev = 0x02) ∧
  (∀ ev, decode ev = .ok (.tick 1) ↔ ev = 0x0A) ∧
  (∀ ev, decode ev = .ok .reset ↔ ev = 0x07) ∧
  (∀ ev : EventWord, ev.toNat % 8 ∈ [3, 4, 5, 6] → decode ev = .error (.reservedEvent ev))

/-- R41: the only operand is L = ev[3], a 1-bit unsigned value, and every other code requires
ev[3] = 0. -/
def Obligations.OperandIsBitThree : Prop :=
  ∀ ev i, decode ev = .ok i →
    (∀ level, i = .tick level → level.toNat = ev.toNat / 8 % 2) ∧
    ((∀ level, i ≠ .tick level) → ev.toNat / 8 % 2 = 0)

/-- Decode and encode agree, in both directions: no bit of an event is dropped, and no word has two
readings (spec/30_encoding.md, sections 1 to 3). -/
def Obligations.DecodeEncodeAgree : Prop :=
  (∀ i : Instr, i.wellFormed = true → decode (encode i) = .ok i) ∧
  (∀ ev i, decode ev = .ok i → encode i = ev) ∧
  (∀ ev, wellFormedWord ev = true ↔ ∃ i, decode ev = .ok i)

/-- A trace decodes from its encoded form, and only that form decodes to it (spec/30_encoding.md,
sections 4 and 5). -/
def Obligations.TraceDecodesFromItsWords : Prop :=
  (∀ events, decodeTrace (encodeTrace events) = .ok events) ∧
  (∀ words events, decodeTrace words = .ok events → encodeTrace events = words) ∧
  (∀ words, (∃ events, decodeTrace words = .ok events) ↔
    ∀ ev ∈ words, ¬ ReservedWord ev)

/-- The written form of a trace reads back as its events, a comment is no part of a line, and a blank
line is no event (spec/30_encoding.md, section 5; the conventions about blanks and line ends are the
model's choice, log entry 11). -/
def Obligations.TraceTextReadsBack : Prop :=
  (∀ events, parseTrace (traceText events) = some (events.map .event)) ∧
  (∀ line comment, parseLine (line ++ ';' :: comment) = parseLine line) ∧
  (∀ blanks, (∀ c ∈ blanks, c = ' ' ∨ c = '\t') → parseLine blanks = some [])

/-- The pseudo-events expand as the table of spec/30_encoding.md, section 5, says; SEND's levels are the
second start bit 1, the toggle, and the bits of the address and of the command, highest first. -/
def Obligations.PseudoEventsExpandAsTabled : Prop :=
  (∀ i, expandLine (.event i) = [i]) ∧
  (∀ levels, expandLine (.samples levels) = levels.map .tick) ∧
  (∀ levels, expandLine (.frame13 levels) =
    [.fall] ++ expandLine (.samples levels) ++ [.tick 1]) ∧
  (∀ toggle address command, ∃ levels,
    expandLine (.send toggle address command) = expandLine (.frame13 levels) ∧
    lineWellFormed (.frame13 levels) = true ∧
    levels.map BitVec.toNat =
      [1, toggle.toNat,
       address.toNat / 16 % 2, address.toNat / 8 % 2, address.toNat / 4 % 2,
       address.toNat / 2 % 2, address.toNat % 2,
       command.toNat / 32 % 2, command.toNat / 16 % 2, command.toNat / 8 % 2,
       command.toNat / 4 % 2, command.toNat / 2 % 2, command.toNat % 2])

/-! ## The step -/

/-- R42: the pseudocode of `step(S, ev)`, over the number of the word. -/
def Obligations.StepRoutesEventWord : Prop :=
  ∀ (s : State) ev rest, s.inputs = ev :: rest →
    step s =
      if ev.toNat / 16 ≠ 0 then .refused (.reservedEvent ev)
      else if ev.toNat % 8 = 0 then
        if ev.toNat / 8 % 2 ≠ 0 then .refused (.reservedEvent ev)
        else exec .nop { s with inputs := rest }
      else if ev.toNat % 8 = 1 then
        if ev.toNat / 8 % 2 ≠ 0 then .refused (.reservedEvent ev)
        else exec .fall { s with inputs := rest }
      else if ev.toNat % 8 = 2 then
        exec (.tick (BitVec.ofNat 1 (ev.toNat / 8 % 2))) { s with inputs := rest }
      else if ev.toNat % 8 = 7 then
        if ev.toNat / 8 % 2 ≠ 0 then .refused (.reservedEvent ev)
        else exec .reset { s with inputs := rest }
      else .refused (.reservedEvent ev)

/-- When the waiting word decodes to an event, the step is that event's meaning in the state without the
word (spec/30_encoding.md, section 3; taking the word from `inputs` is the model's form, log
entry 1). -/
def Obligations.StepRunsDecodedEvent : Prop :=
  ∀ (s : State) ev rest i, s.inputs = ev :: rest → decode ev = .ok i → i.wellFormed = true →
    step s = exec i { s with inputs := rest }

/-- The 251 reserved words are refused with the word as the reason (spec/30_encoding.md, section 4). That
the refusal ends the run, so that every longer run is refused and no state or output follows, is the
model's deduction (DEDUCED, log entry 4): the spec keeps the state under a mark that voids every
claim. -/
def Obligations.ReservedWordsRefused : Prop :=
  (∀ (s : State) ev rest, s.inputs = ev :: rest → ReservedWord ev →
    step s = .refused (.reservedEvent ev) ∧
    ∀ k, runs (k + 1) s = .refused (.reservedEvent ev)) ∧
  ((List.range 256).filter fun n => decide (ReservedWord (BitVec.ofNat 8 n))).length = 251

/-- A step answers a next state unless the waiting word is reserved, and it never faults
(spec/00_scope.md section 4, spec/60_exceptions.md section 1). -/
def Obligations.StepStopsOnlyOnReservedWord : Prop :=
  ∀ s : State,
    (∃ t, step s = .next t) ∨
    ∃ ev rest, s.inputs = ev :: rest ∧ ReservedWord ev ∧ step s = .refused (.reservedEvent ev)

/-- Events are taken in order, one a step, and nothing that was emitted is ever taken back
(spec/20_memory.md section 3; the two lists are the model's own, log entries 1 and 2). -/
def Obligations.StepTakesOneEventInOrder : Prop :=
  ∀ s t : State, step s = .next t →
    t.inputs = s.inputs.tail ∧ ∃ outs, t.outputs = s.outputs ++ outs

/-- With no event waiting, the step is idle and keeps the whole state: the model's choice (log entry 3),
resting on spec/60_exceptions.md section 6. -/
def Obligations.IdleStepKeepsState : Prop :=
  ∀ s : State, s.inputs = [] → step s = .next s

/-- The host's delivery of further events changes nothing but the waiting words, and a step's effect does
not depend on the words behind the one it takes (spec/20_memory.md section 3; log entry 1). -/
def Obligations.DeliveryDoesNotDisturbStep : Prop :=
  ∀ (s t : State) evs, s.inputs ≠ [] → step s = .next t →
    step (deliver evs s) = .next (deliver evs t)

/-! ## Registers, phases and outputs -/

/-- R24: every register's value at power-on and after RESET, and the phase then. -/
def Obligations.ResetValues : Prop :=
  State.reset.block = ⟨0, 0, true, false, false, 0, 0, false⟩ ∧
  phase State.reset.block = .listen ∧
  ∀ s : State, ∃ t, exec .reset s = .next t ∧
    t.block = ⟨0, 0, true, false, false, 0, 0, false⟩ ∧ phase t.block = .listen

/-- R22: the table of phases, and that each event has an effect in every phase. -/
def Obligations.PhasesAndTotality : Prop :=
  (∀ b : Block,
    (phase b = .listen ↔ b.edgeEn = true ∧ b.tmrEn = false) ∧
    (phase b = .sampling ↔ b.edgeEn = false ∧ b.tmrEn = true ∧ b.cnt.toNat < 13) ∧
    (phase b = .full ↔ b.edgeEn = false ∧ b.tmrEn = true ∧ 13 ≤ b.cnt.toNat) ∧
    (phase b = .anomalous ↔ b.edgeEn = b.tmrEn)) ∧
  ∀ i (s : State), ∃ t, exec i s = .next t

/-- R28: the sample bit equals the line's electrical level; the level 0 is the asserted line. -/
def Obligations.SampleBitIsLineLevel : Prop :=
  ∀ level : Bit, sampleBit level = level ∧ (lineAsserted level = true ↔ level.toNat = 0)

/-- The output levels are the enables, and in a reachable state exactly one source is enabled
(spec/10_state.md section 5, spec/60_exceptions.md section 2). -/
def Obligations.OutputLevelsAreEnables : Prop :=
  ∀ b : Block, edgeIrqEn b = b.edgeEn ∧ timerRun b = b.tmrEn ∧
    (Inv b → edgeIrqEn b = !timerRun b)

/-- The writers of each register are those of the table in spec/10_state.md section 1: an event that
performs none of them leaves the register unchanged. -/
def Obligations.RegistersWrittenOnlyAsTabled : Prop :=
  ∀ i (s t : State), exec i s = .next t →
    (t.block.acc ≠ s.block.acc →
      Arms i s.block ∨ Samples i s.block ∨ Frames i s.block ∨ i = .reset) ∧
    (t.block.cnt ≠ s.block.cnt →
      Arms i s.block ∨ Samples i s.block ∨ Frames i s.block ∨ i = .reset) ∧
    (t.block.edgeEn ≠ s.block.edgeEn → Arms i s.block ∨ Frames i s.block ∨ i = .reset) ∧
    (t.block.edgePend ≠ s.block.edgePend →
      Arms i s.block ∨ Latches i s.block ∨ Frames i s.block ∨ i = .reset) ∧
    (t.block.tmrEn ≠ s.block.tmrEn → Arms i s.block ∨ Frames i s.block ∨ i = .reset) ∧
    ((t.block.lastCmd ≠ s.block.lastCmd ∨ t.block.lastTog ≠ s.block.lastTog ∨
        t.block.lastValid ≠ s.block.lastValid) →
      (Frames i s.block ∧ ¬ RepeatsLast s.block) ∨ i = .reset) ∧
    t.inputs = s.inputs

/-- R67: the output events of one step and their order; FRAME carries the fields of ACC (R57). -/
def Obligations.OutputsOfEachStep : Prop :=
  ∀ i (s t : State) f, exec i s = .next t → f = decodeFrame s.block.acc →
    ∃ outs, t.outputs = s.outputs ++ outs ∧
      (Arms i s.block → outs = [.timerStart]) ∧
      (Frames i s.block → RepeatsLast s.block →
        outs = [.timerStop, .frame f.address f.command f.toggle true]) ∧
      (Frames i s.block → ¬ RepeatsLast s.block →
        outs = [.timerStop, .frame f.address f.command f.toggle false, .dispatch f.command]) ∧
      (¬ Arms i s.block → ¬ Frames i s.block → outs = [])

/-- No rule reads EDGE_PEND to choose a transition: states that differ only there go to states that differ
at most there, with the same outputs (spec/10_state.md section 1). -/
def Obligations.EdgePendChoosesNothing : Prop :=
  ∀ i (s t : State) pend, exec i s = .next t →
    ∃ pend', exec i { s with block := { s.block with edgePend := pend } } =
      .next { t with block := { t.block with edgePend := pend' } }

/-! ## FALL -/

/-- R48: EDGE_EN alone chooses between FALL.ARM and FALL.LATCH, in the same step; FALL's word is 0x01, and
0x09 is refused. -/
def Obligations.FallRouting : Prop :=
  (∀ s : State, exec .fall s =
    complete (if s.block.edgeEn = true then fallArm s.block else fallLatch s.block) s) ∧
  decode 0x01 = .ok .fall ∧ decode 0x09 = .error (.reservedEvent 0x09)

/-- R49: FALL.ARM, in every state with EDGE_EN = 1; in a reachable one, ACC and CNT end as if only ACC's
first bit had been set. -/
def Obligations.FallArms : Prop :=
  ∀ s : State, s.block.edgeEn = true →
    exec .fall s = .next { s with
      block := { s.block with edgeEn := false, edgePend := false, acc := 1, cnt := 0, tmrEn := true }
      outputs := s.outputs ++ [.timerStart] } ∧
    (Inv s.block → s.block.acc ||| 1 = 1 ∧ s.block.cnt = 0)

/-- R50: FALL.LATCH, in every state with EDGE_EN = 0: it only sets EDGE_PEND, again and again; with
TMR_EN = 0 too, it is the only effect there is, and only RESET leaves that state. -/
def Obligations.FallLatches : Prop :=
  ∀ s : State, s.block.edgeEn = false →
    exec .fall s = .next { s with block := { s.block with edgePend := true } } ∧
    (s.block.edgePend = true → exec .fall s = .next s) ∧
    (s.block.tmrEn = false → ∀ i t, i ≠ .reset → exec i s = .next t →
      t.block = s.block ∨ t.block = { s.block with edgePend := true })

/-- At most one sequence is in flight: only a FALL with EDGE_EN = 1 starts one, and from then on EDGE_EN
stays 0 until the TICK.FRAME (or RESET) that ends it clears EDGE_PEND in the same step
(spec/40_edge_detector.md R52's text, an inference of the spec). -/
def Obligations.OneSequenceAtATime : Prop :=
  ∀ i (s t : State), exec i s = .next t →
    (s.block.tmrEn = false → t.block.tmrEn = true → Arms i s.block) ∧
    (s.block.edgeEn = false → t.block.edgeEn = true →
      (Frames i s.block ∨ i = .reset) ∧ t.block.edgePend = false ∧ t.block.tmrEn = false) ∧
    (s.block.edgeEn = false → i = .fall →
      t.block.cnt = s.block.cnt ∧ t.block.acc = s.block.acc ∧ t.block.tmrEn = s.block.tmrEn ∧
      t.outputs = s.outputs)

/-! ## TICK -/

/-- R53: TICK routing; CNT = 14 and 15 frame as 13 does; TICK's words are 0x02 and 0x0A. -/
def Obligations.TickRouting : Prop :=
  (∀ level (s : State), exec (.tick level) s =
    complete
      (if s.block.tmrEn = false then tickIgnored s.block
       else if s.block.cnt.toNat < 13 then tickSample level s.block
       else tickFrame s.block) s) ∧
  decode 0x02 = .ok (.tick 0) ∧ decode 0x0A = .ok (.tick 1)

/-- R54: TICK.SAMPLE, by numbers: ACC doubled if nonzero and truncated to 16 bits, then L in bit 0; CNT one
more; nothing else. -/
def Obligations.TickSamplesOneBit : Prop :=
  ∀ level (s : State), s.block.tmrEn = true → s.block.cnt.toNat < 13 →
    ∃ acc : Acc, ∃ cnt : Cnt,
      acc.toNat =
        (if s.block.acc.toNat ≠ 0 then s.block.acc.toNat * 2 % 2 ^ 16 else s.block.acc.toNat) |||
          level.toNat ∧
      cnt.toNat = s.block.cnt.toNat + 1 ∧
      exec (.tick level) s = .next { s with block := { s.block with acc := acc, cnt := cnt } }

/-- R55: TICK.IGNORED changes nothing and emits nothing. -/
def Obligations.TickIgnoredWhileStopped : Prop :=
  ∀ level (s : State), s.block.tmrEn = false → exec (.tick level) s = .next s

/-- R56: TICK.FRAME, whatever L is: the sequence ends, the fields of ACC go out on FRAME after TIMER_STOP,
and repeat suppression runs in the same step. -/
def Obligations.TickFramesSequence : Prop :=
  ∀ level (s : State), s.block.tmrEn = true → 13 ≤ s.block.cnt.toNat →
    ∃ address command toggle,
      address.toNat = (s.block.acc.toNat >>> 6) &&& 0x1F ∧
      command.toNat = s.block.acc.toNat &&& 0x3F ∧
      toggle.toNat = (s.block.acc.toNat >>> 11) &&& 0x1 ∧
      (RepeatsLast s.block →
        exec (.tick level) s = .next { s with
          block := { s.block with
            tmrEn := false, cnt := 0, acc := 0, edgeEn := true, edgePend := false }
          outputs := s.outputs ++ [.timerStop, .frame address command toggle true] }) ∧
      (¬ RepeatsLast s.block →
        exec (.tick level) s = .next { s with
          block := ⟨0, 0, true, false, false, command, toggle, true⟩
          outputs := s.outputs ++
            [.timerStop, .frame address command toggle false, .dispatch command] })

/-- R57: the fields of a frame word of any width, by the source's masks and shifts. -/
def Obligations.FrameFieldsOfAnyWidth : Prop :=
  ∀ (n : Nat) (w : BitVec n),
    (decodeFrame w).address.toNat = (w.toNat >>> 6) &&& 0x1F ∧
    (decodeFrame w).command.toNat = w.toNat &&& 0x3F ∧
    (decodeFrame w).toggle.toNat = (w.toNat >>> 11) &&& 0x1

/-- L is read by TICK.SAMPLE alone: TICK.FRAME and TICK.IGNORED discard it (spec/20_memory.md
section 3). -/
def Obligations.LevelReadOnlyBySampling : Prop :=
  ∀ level level' (s : State), ¬ Samples (.tick level) s.block →
    exec (.tick level) s = exec (.tick level') s

/-- In a reachable state no arithmetic of TICK.SAMPLE overflows: CNT does not wrap and ACC loses no bit
(spec/41_bit_sampler.md section 3, an inference of the spec). -/
def Obligations.SamplingNeverOverflows : Prop :=
  ∀ level (s : State), Inv s.block → s.block.tmrEn = true → s.block.cnt.toNat < 13 →
    ∃ t, exec (.tick level) s = .next t ∧
      t.block.cnt.toNat = s.block.cnt.toNat + 1 ∧ t.block.cnt.toNat ≤ 13 ∧
      t.block.acc.toNat = 2 * s.block.acc.toNat + level.toNat ∧ t.block.acc.toNat < 2 ^ 14

/-- Guarded or not, the shift gives the same accumulator, so the guard is never seen: from the pseudocode
of TICK.SAMPLE (spec/41_bit_sampler.md, section 1) and the shift operator (spec/00_scope.md, section
4). That this covers a zero accumulator too is the model's deduction (DEDUCED, log entry 14);
spec/70_reset_and_hazards.md, section 2, says it of reachable states only. -/
def Obligations.ShiftGuardIsNeverSeen : Prop :=
  ∀ (n : Nat) (acc : BitVec n) (level : Bit),
    shiftIn level acc = (acc <<< 1) ||| level.setWidth n

/-! ## Repeat suppression -/

/-- R63: the repeat verdict; the address takes no part, and while LAST_VALID = 0 every frame is new. -/
def Obligations.RepeatVerdict : Prop :=
  ∀ (f : DecodedFrame) (b : Block),
    (repeatVerdict f b = true ↔
      b.lastValid = true ∧ f.command = b.lastCmd ∧ f.toggle = b.lastTog) ∧
    (∀ address, repeatVerdict { f with address := address } b = repeatVerdict f b) ∧
    (b.lastValid = false → repeatVerdict f b = false)

/-- R64: the repeat verdict emits FRAME(.., 1), leaves every register as it is and dispatches nothing. -/
def Obligations.RepeatIsNotDispatched : Prop :=
  ∀ (f : DecodedFrame) (b : Block), repeatVerdict f b = true →
    suppress f b = { block := b, outs := [.frame f.address f.command f.toggle true] }

/-- R65: the new verdict updates RepeatState to the frame, emits FRAME(.., 0), then exactly one
DISPATCH. -/
def Obligations.NewFrameIsDispatchedOnce : Prop :=
  ∀ (f : DecodedFrame) (b : Block), repeatVerdict f b = false →
    suppress f b =
      { block := { b with lastCmd := f.command, lastTog := f.toggle, lastValid := true }
        outs := [.frame f.address f.command f.toggle false, .dispatch f.command] }

/-- Changing the address field of ACC alone changes neither the next registers nor what is dispatched
(spec/42_repeat_suppression.md R66's text, an inference of the spec). -/
def Obligations.AddressDoesNotDecideDispatch : Prop :=
  ∀ level (s t t' : State) acc', Frames (.tick level) s.block →
    acc'.toNat &&& 0x3F = s.block.acc.toNat &&& 0x3F →
    (acc'.toNat >>> 11) &&& 0x1 = (s.block.acc.toNat >>> 11) &&& 0x1 →
    exec (.tick level) s = .next t →
    exec (.tick level) { s with block := { s.block with acc := acc' } } = .next t' →
    t'.block = t.block ∧ dispatched t'.outputs = dispatched t.outputs ∧
      frameCount t'.outputs = frameCount t.outputs

/-! ## NOP and RESET -/

/-- R69: NOP changes no state and emits nothing; its word is 0x00, and 0x08 is refused. -/
def Obligations.NopIsIdle : Prop :=
  (∀ s : State, exec .nop s = .next s) ∧ decode 0x00 = .ok .nop ∧
    decode 0x08 = .error (.reservedEvent 0x08)

/-- R70: RESET writes every register whatever the phase and emits nothing; the output levels fall and
rise; its word is 0x07, and 0x0F is refused. -/
def Obligations.ResetWritesEveryRegister : Prop :=
  (∀ s : State, ∃ t,
    exec .reset s = .next t ∧
    t = { s with block := ⟨0, 0, true, false, false, 0, 0, false⟩ } ∧
    timerRun t.block = false ∧ edgeIrqEn t.block = true ∧ exec .reset t = .next t) ∧
  decode 0x07 = .ok .reset ∧ decode 0x0F = .error (.reservedEvent 0x0F)

/-! ## Invariants -/

/-- The reset state satisfies the invariant of spec/10_state.md section 2. -/
def Obligations.ResetSatisfiesInv : Prop := Inv State.reset.block ∧ ListenInv State.reset.block

/-- Every step keeps the invariant of spec/10_state.md section 2 (R23's text, an inference of the spec),
whatever event comes next. -/
def Obligations.StepKeepsInv : Prop :=
  ∀ s t : State, Inv s.block → step s = .next t → Inv t.block

/-- What R23 concludes of every state reached from reset by any events whatever: exactly one of the two
invariants, never ANOMALOUS, CNT at most 13, ACC nonzero while the sampler runs. -/
def Obligations.ReachableStatesAreSound : Prop :=
  ∀ words k t, runs k { State.reset with inputs := words } = .next t →
    (ListenInv t.block ∨ SequenceInv t.block) ∧ ¬ (ListenInv t.block ∧ SequenceInv t.block) ∧
    RepeatInv t.block ∧ phase t.block ≠ .anomalous ∧ t.block.cnt.toNat ≤ 13 ∧
    (t.block.tmrEn = true → t.block.acc ≠ 0) ∧ edgeIrqEn t.block = !timerRun t.block

/-! ## Sequences -/

/-- After FALL.ARM and 13 samples b1 to b13, ACC is 2^13 + Σ b_i · 2^(13-i), the state is FULL and each
field is a fixed run of samples (spec/41_bit_sampler.md R58's text, an inference of the spec). -/
def Obligations.SamplesFillAccumulator : Prop :=
  ∀ (s : State) levels rest, s.block.edgeEn = true → levels.length = 13 →
    s.inputs = encodeTrace (.fall :: sampleTicks levels) ++ rest →
    ∃ u, runs 14 s = .next u ∧ u.inputs = rest ∧ phase u.block = .full ∧
      u.outputs = s.outputs ++ [.timerStart] ∧
      u.block.acc.toNat =
        2 ^ 13 + ((List.range 13).map fun i => (levels.getD i 0).toNat * 2 ^ (12 - i)).sum ∧
      (decodeFrame u.block.acc).toggle = levels.getD 1 0 ∧
      (decodeFrame u.block.acc).address.toNat =
        ((List.range 5).map fun i => (levels.getD (2 + i) 0).toNat * 2 ^ (4 - i)).sum ∧
      (decodeFrame u.block.acc).command.toNat =
        ((List.range 6).map fun i => (levels.getD (7 + i) 0).toNat * 2 ^ (5 - i)).sum

/-- The fields extracted after 13 samples are the same for every accumulator width of at least 13
(spec/41_bit_sampler.md R59's text, an inference of the spec). -/
def Obligations.WidthDoesNotChangeFields : Prop :=
  ∀ (n : Nat) (levels : List Bit), 13 ≤ n → levels.length = 13 →
    decodeFrame (levels.foldl (fun acc level => shiftIn level acc) (1 : BitVec n)) =
      decodeFrame (levels.foldl (fun acc level => shiftIn level acc) (1 : Acc))

/-- A sequence that starts in LISTEN, with any FALLs and NOPs between its ticks, emits exactly one FRAME,
at its 14th TICK and none sooner, and the block listens again (spec/41_bit_sampler.md R62's text and
spec/70_reset_and_hazards.md R91's, inferences of the spec). -/
def Obligations.OneFrameAtFourteenthTick : Prop :=
  ∀ (s : State) between level rest, ListenInv s.block →
    Instr.reset ∉ between → tickCount between = 13 →
    s.inputs = encodeTrace (.fall :: between ++ [.tick level]) ++ rest →
    (∀ k, k ≤ between.length + 1 →
      ∃ u, runs k s = .next u ∧ frameCount u.outputs = frameCount s.outputs) ∧
    ∃ u, runs (between.length + 2) s = .next u ∧ u.inputs = rest ∧ ListenInv u.block ∧
      frameCount u.outputs = frameCount s.outputs + 1

/-- What SEND sends is what the block puts out: from LISTEN, the 15 events of SEND t, a, c give
TIMER_START, TIMER_STOP, FRAME(a, c, t, rep), and DISPATCH(c) exactly when the frame is new
(spec/30_encoding.md section 5 against spec/41_bit_sampler.md and spec/42_repeat_suppression.md). -/
def Obligations.SendComesOutAsFrame : Prop :=
  ∀ (s : State) toggle address command rest, ListenInv s.block →
    s.inputs = encodeTrace (expandLine (.send toggle address command)) ++ rest →
    ∃ u rep, runs 15 s = .next u ∧
      (rep = true ↔
        s.block.lastValid = true ∧ s.block.lastCmd = command ∧ s.block.lastTog = toggle) ∧
      u = { block := ⟨0, 0, true, false, false, command, toggle, true⟩
            inputs := rest
            outputs := s.outputs ++
              [.timerStart, .timerStop, .frame address command toggle rep] ++
              if rep then [] else [.dispatch command] }

/-- A held button dispatches at most once: however many frames of one command and toggle come in a row,
from whatever addresses, each gives a FRAME, and one DISPATCH goes out if the first is new and none
otherwise (spec/42_repeat_suppression.md R68's text, an inference of the spec). -/
def Obligations.HeldButtonDispatchesOnce : Prop :=
  ∀ (s : State) toggle command (addresses : List Addr) rest, ListenInv s.block →
    s.inputs =
      encodeTrace (expandTrace (addresses.map fun a => .send toggle a command)) ++ rest →
    ∃ u outs, runs (15 * addresses.length) s = .next u ∧ u.inputs = rest ∧
      u.outputs = s.outputs ++ outs ∧ frameCount outs = addresses.length ∧
      ListenInv u.block ∧
      dispatched outs =
        if addresses = [] ∨ (s.block.lastValid = true ∧ s.block.lastCmd = command ∧
            s.block.lastTog = toggle) then []
        else [command]

/-- Under the host's duty to tick only while `timer_run` = 1, and with no RESET, every 14 TICKs since
LISTEN gave one FRAME, and CNT counts the rest (spec/60_exceptions.md section 7,
spec/70_reset_and_hazards.md section 3). -/
def Obligations.TicksAccountForFrames : Prop :=
  ∀ (s : State) events rest, ListenInv s.block → Instr.reset ∉ events →
    ticksOnlyWhileRunning s events = true →
    s.inputs = encodeTrace events ++ rest →
    ∃ u outs, runs events.length s = .next u ∧ u.inputs = rest ∧ u.outputs = s.outputs ++ outs ∧
      tickCount events = 14 * frameCount outs + u.block.cnt.toNat

/-- If no TICK and no RESET comes while the sampler runs, the block stays where it is for ever: FALLs are
only latched and nothing is emitted (spec/60_exceptions.md section 7). -/
def Obligations.SequenceHangsWithoutTicks : Prop :=
  ∀ (s : State) events rest, s.block.edgeEn = false → s.block.tmrEn = true →
    (∀ i ∈ events, i = .nop ∨ i = .fall) →
    s.inputs = encodeTrace events ++ rest →
    runs events.length s = .next { s with
      block := { s.block with edgePend := s.block.edgePend || events.contains .fall }
      inputs := rest }

/-- NOPs anywhere in a trace change no outcome: the run without them ends in the same state
(spec/43_control.md section on NOP, an inference of the spec). -/
def Obligations.NopsChangeNoOutcome : Prop :=
  ∀ (s : State) events rest,
    runs events.length { s with inputs := encodeTrace events ++ rest } =
      runs (events.filter (· ≠ .nop)).length
        { s with inputs := encodeTrace (events.filter (· ≠ .nop)) ++ rest }

/-- In FULL, the two orders of a FALL and a TICK are both runs of the model, and they differ: FALL first
loses the edge, TICK first arms a new sequence after the frame (spec/60_exceptions.md section 2). -/
def Obligations.BothOrdersOfEdgeAndTick : Prop :=
  ∀ (s : State) level, phase s.block = .full →
    ∃ u v : State,
      runs 2 { s with inputs := encodeTrace [.fall, .tick level] } = .next u ∧
      runs 2 { s with inputs := encodeTrace [.tick level, .fall] } = .next v ∧
      ListenInv u.block ∧ phase v.block = .sampling ∧ v.block.cnt = 0 ∧ v.block.acc = 1 ∧
      v.outputs = u.outputs ++ [.timerStart]

/-! ## The host's timing -/

/-- Tick i lands in the first half of wire bit i exactly when the first delay, with the period's error
added up over i - 1 periods, is in [T/2, T); with T_SAMPLE = T this is the window of
spec/70_reset_and_hazards.md R85 for every i, and with i = 13 it is R86's sum. FRAME comes at the 14th
tick (R62). Inferences of the spec; the Manchester convention is its general knowledge K2 (log
entry 13). -/
def Obligations.FirstTickWindow : Prop :=
  (∀ bitPeriod firstTickDelay tSample i : Nat, 1 ≤ i →
    (TickInFirstHalf bitPeriod firstTickDelay tSample i ↔
      (bitPeriod : Int) ≤
        2 * ((firstTickDelay : Int) + ((i : Int) - 1) * ((tSample : Int) - (bitPeriod : Int))) ∧
      (firstTickDelay : Int) + ((i : Int) - 1) * ((tSample : Int) - (bitPeriod : Int)) <
        (bitPeriod : Int))) ∧
  (∀ bitPeriod firstTickDelay tSample : Nat, TimingMatches bitPeriod firstTickDelay tSample →
    ∀ i, 1 ≤ i → TickInFirstHalf bitPeriod firstTickDelay tSample i) ∧
  ∀ firstTickDelay tSample : Nat,
    frameTime firstTickDelay tSample = firstTickDelay + 13 * tSample
end

