-- ==== Sys2Proof/Laws/Decode.lean ====
section
/-! SUPPORT. The fields of an event word and the word of an event, taken apart once
(spec/30_encoding.md R39, R42). -/

namespace Sys2Proof

/-- The word types have the widths of spec/00_scope.md R5. -/
theorem widths_are_configured :
    Acc = BitVec Config.accWidth ∧ Cnt = BitVec Config.cntWidth ∧ Cmd = BitVec Config.cmdWidth ∧
      Addr = BitVec Config.addrWidth ∧ Bit = BitVec Config.togWidth := ⟨rfl, rfl, rfl, rfl, rfl⟩

@[simp] theorem rsvdField_eventWord (rsvd : BitVec 4) (level : Bit) (code : BitVec 3) :
    rsvdField (eventWord rsvd level code) = rsvd := by
  revert rsvd level code; decide

@[simp] theorem levelField_eventWord (rsvd : BitVec 4) (level : Bit) (code : BitVec 3) :
    levelField (eventWord rsvd level code) = level := by
  revert rsvd level code; decide

@[simp] theorem codeField_eventWord (rsvd : BitVec 4) (level : Bit) (code : BitVec 3) :
    codeField (eventWord rsvd level code) = code := by
  revert rsvd level code; decide

/-- The three fields are the whole word. -/
theorem eventWord_fields (ev : EventWord) :
    eventWord (rsvdField ev) (levelField ev) (codeField ev) = ev := by
  revert ev; decide

/-- The fields by the word's number. -/
theorem fields_toNat (ev : EventWord) :
    (rsvdField ev).toNat = ev.toNat / 16 ∧ (levelField ev).toNat = ev.toNat / 8 % 2 ∧
      (codeField ev).toNat = ev.toNat % 8 := by
  revert ev; decide

@[simp] theorem encodeTrace_nil : encodeTrace [] = [] := rfl
@[simp] theorem encodeTrace_cons (i : Instr) (is : List Instr) :
    encodeTrace (i :: is) = encode i :: encodeTrace is := rfl
@[simp] theorem encodeTrace_append (is js : List Instr) :
    encodeTrace (is ++ js) = encodeTrace is ++ encodeTrace js := List.map_append

/-- A word is well formed or reserved, never both (R43). -/
theorem wellFormedWord_iff_not_reserved (ev : EventWord) :
    wellFormedWord ev = true ↔ ¬ ReservedWord ev := by
  revert ev; decide

end Sys2Proof
end

