-- ==== Sys2Proof/Laws/State.lean ====
section
/-! SUPPORT. One lemma per field per update of the state, true by rfl, so that no later proof unfolds a
record update. -/

namespace Sys2Proof.Machine

@[simp] theorem reset_block : State.reset.block = Block.reset := rfl
@[simp] theorem reset_inputs : State.reset.inputs = [] := rfl
@[simp] theorem reset_outputs : State.reset.outputs = [] := rfl

@[simp] theorem deliver_block (evs : List EventWord) (s : State) :
    (deliver evs s).block = s.block := rfl
@[simp] theorem deliver_inputs (evs : List EventWord) (s : State) :
    (deliver evs s).inputs = s.inputs ++ evs := rfl
@[simp] theorem deliver_outputs (evs : List EventWord) (s : State) :
    (deliver evs s).outputs = s.outputs := rfl

@[simp] theorem withFetchWord_block (s : State) (nbits w : Nat) :
    (s.withFetchWord nbits w).block = s.block := rfl
@[simp] theorem withFetchWord_inputs (s : State) (nbits w : Nat) :
    (s.withFetchWord nbits w).inputs = tableWord nbits w :: s.inputs := rfl
@[simp] theorem withFetchWord_outputs (s : State) (nbits w : Nat) :
    (s.withFetchWord nbits w).outputs = s.outputs := rfl

/-- R12: a register vector is its eight registers. -/
theorem block_ext {a b : Block} (acc : a.acc = b.acc) (cnt : a.cnt = b.cnt)
    (edgeEn : a.edgeEn = b.edgeEn) (edgePend : a.edgePend = b.edgePend) (tmrEn : a.tmrEn = b.tmrEn)
    (lastCmd : a.lastCmd = b.lastCmd) (lastTog : a.lastTog = b.lastTog)
    (lastValid : a.lastValid = b.lastValid) : a = b := by
  cases a; cases b; simp_all

/-! ## What each operation does to each register, and what it emits -/

@[simp] theorem unchanged_block (b : Block) : (unchanged b).block = b := rfl
@[simp] theorem unchanged_outs (b : Block) : (unchanged b).outs = [] := rfl

@[simp] theorem resetEffect_block : resetEffect.block = Block.reset := rfl
@[simp] theorem resetEffect_outs : resetEffect.outs = [] := rfl

@[simp] theorem fallArm_acc (b : Block) : (fallArm b).block.acc = 1 := rfl
@[simp] theorem fallArm_cnt (b : Block) : (fallArm b).block.cnt = 0 := rfl
@[simp] theorem fallArm_edgeEn (b : Block) : (fallArm b).block.edgeEn = false := rfl
@[simp] theorem fallArm_edgePend (b : Block) : (fallArm b).block.edgePend = false := rfl
@[simp] theorem fallArm_tmrEn (b : Block) : (fallArm b).block.tmrEn = true := rfl
@[simp] theorem fallArm_lastCmd (b : Block) : (fallArm b).block.lastCmd = b.lastCmd := rfl
@[simp] theorem fallArm_lastTog (b : Block) : (fallArm b).block.lastTog = b.lastTog := rfl
@[simp] theorem fallArm_lastValid (b : Block) : (fallArm b).block.lastValid = b.lastValid := rfl
@[simp] theorem fallArm_outs (b : Block) : (fallArm b).outs = [.timerStart] := rfl

@[simp] theorem fallLatch_block (b : Block) :
    (fallLatch b).block = { b with edgePend := true } := rfl
@[simp] theorem fallLatch_outs (b : Block) : (fallLatch b).outs = [] := rfl

@[simp] theorem tickIgnored_block (b : Block) : (tickIgnored b).block = b := rfl
@[simp] theorem tickIgnored_outs (b : Block) : (tickIgnored b).outs = [] := rfl

@[simp] theorem tickSample_block (level : Bit) (b : Block) :
    (tickSample level b).block = { b with acc := shiftIn level b.acc, cnt := b.cnt + 1 } := rfl
@[simp] theorem tickSample_outs (level : Bit) (b : Block) : (tickSample level b).outs = [] := rfl

@[simp] theorem tickFrame_acc (b : Block) : (tickFrame b).block.acc = 0 := rfl
@[simp] theorem tickFrame_cnt (b : Block) : (tickFrame b).block.cnt = 0 := rfl
@[simp] theorem tickFrame_edgeEn (b : Block) : (tickFrame b).block.edgeEn = true := rfl
@[simp] theorem tickFrame_edgePend (b : Block) : (tickFrame b).block.edgePend = false := rfl
@[simp] theorem tickFrame_tmrEn (b : Block) : (tickFrame b).block.tmrEn = false := rfl
@[simp] theorem tickFrame_lastCmd (b : Block) :
    (tickFrame b).block.lastCmd = (suppress (decodeFrame b.acc) b).block.lastCmd := rfl
@[simp] theorem tickFrame_lastTog (b : Block) :
    (tickFrame b).block.lastTog = (suppress (decodeFrame b.acc) b).block.lastTog := rfl
@[simp] theorem tickFrame_lastValid (b : Block) :
    (tickFrame b).block.lastValid = (suppress (decodeFrame b.acc) b).block.lastValid := rfl
@[simp] theorem tickFrame_outs (b : Block) :
    (tickFrame b).outs = .timerStop :: (suppress (decodeFrame b.acc) b).outs := rfl

end Sys2Proof.Machine
end

