-- ==== Sys2Proof/Laws/Ops.lean ====
section
/-! SUPPORT. One lemma for each shared operation that says everything it can do. -/

namespace Sys2Proof.Machine

@[simp] theorem complete_eq (e : Effect) (s : State) :
    complete e s = .next { s with block := e.block, outputs := s.outputs ++ e.outs } := rfl

@[simp] theorem takeEvent_of_nil {s : State} (h : s.inputs = []) : takeEvent s = none := by
  simp [takeEvent, h]

@[simp] theorem takeEvent_of_cons {s : State} {ev : EventWord} {rest : List EventWord}
    (h : s.inputs = ev :: rest) : takeEvent s = some (ev, { s with inputs := rest }) := by
  simp [takeEvent, h]

@[simp] theorem idle_eq (s : State) : idle s = .next s := rfl

@[simp] theorem refuseReserved_eq (ev : EventWord) :
    refuseReserved ev = .refused (.reservedEvent ev) := rfl

/-- The accumulator's step, with the sample bit named (R54). -/
theorem shiftIn_eq {n : Nat} (level : Bit) (acc : BitVec n) :
    shiftIn level acc =
      (if acc = 0 then acc else acc <<< 1) ||| (sampleBit level).setWidth n := rfl

/-- Where the doubled accumulator fits the width, the step is doubling and adding (R54, R61). -/
theorem shiftIn_toNat {n : Nat} (level : Bit) (acc : BitVec n)
    (fits : 2 * acc.toNat + 1 < 2 ^ n) :
    (shiftIn level acc).toNat = 2 * acc.toNat + (sampleBit level).toNat := by
  have guard : (if acc = 0 then acc else acc <<< 1) = acc <<< 1 := by
    split
    · simp [*]
    · rfl
  have bit : (sampleBit level).toNat < 2 := (sampleBit level).isLt
  have disjoint := Nat.two_pow_add_eq_or_of_lt (i := 1) (b := (sampleBit level).toNat)
    (by omega) acc.toNat
  rw [Nat.pow_one] at disjoint
  rw [shiftIn_eq, guard, BitVec.toNat_or, BitVec.toNat_shiftLeft, BitVec.toNat_setWidth,
    Nat.shiftLeft_eq, Nat.pow_one, Nat.mul_comm acc.toNat 2, Nat.mod_eq_of_lt (by omega),
    Nat.mod_eq_of_lt (by omega), disjoint]

/-- FALL does FALL.ARM or FALL.LATCH (R48). -/
theorem fallEffect_of_enabled {b : Block} (h : b.edgeEn = true) : fallEffect b = fallArm b := by
  simp [fallEffect, h]

theorem fallEffect_of_masked {b : Block} (h : b.edgeEn = false) : fallEffect b = fallLatch b := by
  simp [fallEffect, h]

/-- TICK does TICK.IGNORED, TICK.SAMPLE or TICK.FRAME (R53). -/
theorem tickEffect_of_stopped {b : Block} (level : Bit) (h : b.tmrEn = false) :
    tickEffect level b = tickIgnored b := by
  simp [tickEffect, timerRun, h]

theorem tickEffect_of_sampling {b : Block} (level : Bit) (run : b.tmrEn = true)
    (more : b.cnt.toNat < 13) : tickEffect level b = tickSample level b := by
  simp [tickEffect, timerRun, samplesDone, run, Nat.not_le.mpr more]

theorem tickEffect_of_full {b : Block} (level : Bit) (run : b.tmrEn = true)
    (done : 13 ≤ b.cnt.toNat) : tickEffect level b = tickFrame b := by
  simp [tickEffect, timerRun, samplesDone, run, done]

/-- SUPPRESS has the repeat effect or the new effect (R63 to R65). -/
theorem suppress_of_verdict (f : DecodedFrame) (b : Block) :
    suppress f b = bif repeatVerdict f b then suppressRepeat f b else suppressNew f b := by
  cases h : repeatVerdict f b <;> simp [suppress, h]

end Sys2Proof.Machine
end

