-- ==== Sys2Proof/Laws/Exec.lean ====
section
/-! SUPPORT. What an event can do, said once: a proof about every event goes through
`exec_eq_complete` and then the routing lemmas of Laws/Ops.lean. -/

namespace Sys2Proof.Laws

open Sys2Proof.Machine Sys2Proof.Safety

/-- The effect of each event on the registers (R42). -/
def effectOf (i : Instr) (b : Block) : Effect :=
  match i with
  | .nop => unchanged b
  | .fall => fallEffect b
  | .tick level => tickEffect level b
  | .reset => resetEffect

/-- An event's meaning is its effect, completed; it never stops (R9, R34). -/
theorem exec_eq_complete (i : Instr) (s : State) : exec i s = complete (effectOf i s.block) s := by
  cases i <;> rfl

/-- The effect of an event is one of the seven operations the spec names. -/
theorem effectOf_cases (i : Instr) (b : Block) :
    (i = .nop ∧ effectOf i b = unchanged b) ∨
    (Arms i b ∧ effectOf i b = fallArm b) ∨
    (Latches i b ∧ effectOf i b = fallLatch b) ∨
    ((∃ level, i = .tick level) ∧ b.tmrEn = false ∧ effectOf i b = tickIgnored b) ∨
    (∃ level, i = .tick level ∧ b.tmrEn = true ∧ b.cnt.toNat < 13 ∧
      effectOf i b = tickSample level b) ∨
    (Frames i b ∧ effectOf i b = tickFrame b) ∨
    (i = .reset ∧ effectOf i b = resetEffect) := by
  cases i with
  | nop => exact .inl ⟨rfl, rfl⟩
  | reset => simp [effectOf]
  | fall =>
    rcases Bool.eq_false_or_eq_true b.edgeEn with h | h
    · exact .inr <| .inl ⟨⟨rfl, h⟩, fallEffect_of_enabled h⟩
    · exact .inr <| .inr <| .inl ⟨⟨rfl, h⟩, fallEffect_of_masked h⟩
  | tick level =>
    rcases Bool.eq_false_or_eq_true b.tmrEn with run | run
    rotate_left
    · exact .inr <| .inr <| .inr <| .inl ⟨⟨level, rfl⟩, run, tickEffect_of_stopped level run⟩
    · rcases Nat.lt_or_ge b.cnt.toNat 13 with more | done
      · refine .inr <| .inr <| .inr <| .inr <| .inl ⟨level, rfl, run, more, ?_⟩
        exact tickEffect_of_sampling level run more
      · refine .inr <| .inr <| .inr <| .inr <| .inr <| .inl ⟨⟨⟨level, rfl⟩, run, done⟩, ?_⟩
        exact tickEffect_of_full level run done

/-- A step on a word that decodes (R42). -/
theorem step_of_decoded {s : State} {ev : EventWord} {rest : List EventWord} {i : Instr}
    (waiting : s.inputs = ev :: rest) (decoded : decode ev = .ok i) :
    step s = complete (effectOf i s.block) { s with inputs := rest } := by
  simp [step, takeEvent_of_cons waiting, decoded, exec_eq_complete]

end Sys2Proof.Laws
end

