-- ==== Sys2Proof/Laws/PerInstr.lean ====
section
/-! SUPPORT. Statements about every event as syntax, one lemma per constructor. -/

namespace Sys2Proof.Laws.EncodedWordWellFormed

/-- The encoder writes no word that spec/30_encoding.md R43 reserves. -/
def Statement (i : Instr) : Prop := wellFormedWord (encode i) = true

theorem nop : Statement .nop := rfl

theorem fall : Statement .fall := rfl

theorem tick (level : Bit) : Statement (.tick level) := by
  unfold Statement; revert level; decide

theorem reset : Statement .reset := rfl

end Sys2Proof.Laws.EncodedWordWellFormed
end

