-- ==== Sys2Proof/Laws/Run.lean ====
section
/-! SUPPORT. Runs of the machine, unfolded once: a proof about a run goes step by step through
`runs_of_next`. -/

namespace Sys2Proof.Laws

open Sys2Proof.Machine Sys2Proof.Safety

/-- One step of any machine behind the host's interface that answers a next state. -/
theorem hostRun_of_next (M : Host.Core) (k : Nat) (s t : M.State) (h : M.step s = .next t) :
    M.run (k + 1) s = M.run k t := by
  simp only [Host.Core.run, h]

/-- A refusal ends a run. -/
theorem hostRun_of_refused (M : Host.Core) (k : Nat) (s : M.State) (r : M.Refusal)
    (h : M.step s = .refused r) : M.run (k + 1) s = .refused r := by
  simp only [Host.Core.run, h]

@[simp] theorem runs_zero (s : State) : runs 0 s = .next s := rfl

theorem runs_of_next {s t : State} (k : Nat) (h : step s = .next t) :
    runs (k + 1) s = runs k t := hostRun_of_next core k s t h

theorem runs_of_refused {s : State} {r : Refusal} (k : Nat) (h : step s = .refused r) :
    runs (k + 1) s = .refused r := hostRun_of_refused core k s r h

/-- A run that answers a next state is a first step and a run from there. -/
theorem runs_succ_next {k : Nat} {s t : State} (h : runs (k + 1) s = .next t) :
    ∃ u, step s = .next u ∧ runs k u = .next t := by
  cases first : step s with
  | next u => exact ⟨u, rfl, by rwa [runs_of_next k first] at h⟩
  | refused r => rw [runs_of_refused k first] at h; cases h
  | fault r => cases r

/-- Runs follow one another. -/
theorem runs_add {j k : Nat} {s t : State} (h : runs k s = .next t) :
    runs (k + j) s = runs j t := by
  induction k generalizing s with
  | zero => rw [runs_zero] at h; cases h; rw [Nat.zero_add]
  | succ k ih =>
    obtain ⟨u, first, after⟩ := runs_succ_next h
    rw [Nat.succ_add, Nat.succ_eq_add_one, runs_of_next _ first, ih after]

end Sys2Proof.Laws
end

