-- ==== Sys2Proof/Tests/Slice0.lean ====
section
/-! SUPPORT. The model's own tests: words written out from spec/30_encoding.md, rows of
spec/95_test_vectors.md for single steps, and a witness for the hypotheses of each statement. The
expected values are the spec's, not the model's. -/

namespace Sys2Proof.Tests

open Sys2Proof.Machine Sys2Proof.Safety

/-- A state of the notation of spec/95_test_vectors.md: ACC, CNT, EDGE_EN, EDGE_PEND, TMR_EN, LAST_CMD,
LAST_TOG, LAST_VALID; no event waits and none was emitted. -/
def at' (acc : Acc) (cnt : Cnt) (edgeEn edgePend tmrEn : Bool) (lastCmd : Cmd) (lastTog : Bit)
    (lastValid : Bool) : State :=
  { block := ⟨acc, cnt, edgeEn, edgePend, tmrEn, lastCmd, lastTog, lastValid⟩
    inputs := []
    outputs := [] }

/-- The next state of an outcome, if it is one: outcomes have no decidable equality. -/
def nextOf : Host.Outcome State Fault Refusal → Option State
  | .next t => some t
  | _ => none

/-- The same state with these words waiting. -/
def waiting (words : List EventWord) (s : State) : State := { s with inputs := words }

/-- SAMPLING, CNT = 3, as in V-FALL's third row. -/
def sampling3 : State := at' 0x000C 3 false false true 0 0 false

/-- FULL with P1's frame word. -/
def full : State := at' 0x3040 13 false false true 0 0 false

/-- FULL with P1's frame word, that frame held in RepeatState. -/
def fullHeld : State := at' 0x3040 13 false false true 0 0 true

/-- ANOMALOUS with both enables off. -/
def stopped : State := at' 0 0 false false false 0 0 false

/-! ## Well-formedness (R43): each check refuses a word -/

theorem test_reserved_bits_refused : wellFormedWord 0x10 = false ∧ wellFormedWord 0x80 = false := by
  decide
theorem test_reserved_code_refused : wellFormedWord 0x03 = false ∧ wellFormedWord 0x06 = false := by
  decide
theorem test_level_on_nop_refused : wellFormedWord 0x08 = false ∧ wellFormedWord 0x0F = false := by
  decide
theorem test_frame13_of_12_refused :
    lineWellFormed (.frame13 (List.replicate 12 0)) = false ∧
      lineWellFormed (.frame13 (List.replicate 13 0)) = true := by decide
theorem test_samples_of_none_refused : lineWellFormed (.samples []) = false := by decide

/-! ## Decoding (R40, V-ENC), the words bit by bit -/

theorem test_decode_nop : decode 0b0000_0_000 = .ok .nop := by decide
theorem test_decode_fall : decode 0b0000_0_001 = .ok .fall := by decide
theorem test_decode_tick_low : decode 0b0000_0_010 = .ok (.tick 0) := by decide
theorem test_decode_tick_high : decode 0b0000_1_010 = .ok (.tick 1) := by decide
theorem test_decode_reset : decode 0b0000_0_111 = .ok .reset := by decide
theorem test_decode_refused :
    decode 0b0000_1_001 = .error (.reservedEvent 0x09) ∧
      decode 0b0000_0_100 = .error (.reservedEvent 0x04) ∧
      decode 0b1111_1_111 = .error (.reservedEvent 0xFF) := by decide
theorem test_decode_table_words :
    decodeTableWord 8 0x0A = some (.tick 1) ∧ decodeTableWord 8 0x03 = none := by decide

/-! ## One step (V-FALL, V-SAMPLE, V-IGNORED, V-FRAME, V-CTRL) -/

theorem test_fall_arms :
    nextOf (exec .fall (at' 0x0123 5 true true true 21 1 true)) =
      some { at' 0x0001 0 false false true 21 1 true with outputs := [.timerStart] } := by decide

theorem test_fall_latches :
    nextOf (exec .fall sampling3) = some (at' 0x000C 3 false true true 0 0 false) := by decide

theorem test_tick_samples :
    nextOf (exec (.tick 0) (at' 0x1820 12 false false true 0 0 false)) = some full ∧
      nextOf (exec (.tick 1) (at' 0x8001 2 false false true 0 0 false)) =
        some (at' 0x0003 3 false false true 0 0 false) ∧
      nextOf (exec (.tick 1) (at' 0x0000 4 false false true 0 0 false)) =
        some (at' 0x0001 5 false false true 0 0 false) := by decide

theorem test_tick_frames :
    nextOf (exec (.tick 0) (at' 0x3295 13 false true true 0 0 false)) =
        some { at' 0 0 true false false 21 0 true with
          outputs := [.timerStop, .frame 10 21 0 false, .dispatch 21] } ∧
      nextOf (exec (.tick 1) (at' 0x3140 13 false false true 0 0 true)) =
        some { at' 0 0 true false false 0 0 true with
          outputs := [.timerStop, .frame 5 0 0 true] } := by decide

theorem test_reset_abandons :
    nextOf (exec .reset (at' 0x0030 5 false true true 7 1 true)) = some State.reset := by decide

theorem test_nop_keeps :
    nextOf (exec .nop (at' 0x0030 5 false true true 7 1 true)) =
      some (at' 0x0030 5 false true true 7 1 true) := by decide

theorem test_fetch_word_runs_first :
    nextOf (step (State.reset.withFetchWord 8 0x01)) =
      some { at' 0x0001 0 false false true 0 0 false with outputs := [.timerStart] } := by decide

/-! ## Field extraction (E1), trace text (R45, R46) and timing (V-TIME, in microseconds) -/

theorem test_decode_frame :
    decodeFrame (0x1040 : Acc) = ⟨1, 0, 0⟩ ∧ decodeFrame (0x1FFF : Acc) = ⟨31, 63, 1⟩ ∧
      decodeFrame (0x0800 : Acc) = ⟨0, 0, 1⟩ ∧ decodeFrame (0x003F : Acc) = ⟨0, 63, 0⟩ := by decide

theorem test_send_words :
    encodeTrace (expandLine (.send 0 5 0)) =
      [0x01, 0x0A, 0x02, 0x02, 0x02, 0x0A, 0x02, 0x0A, 0x02, 0x02, 0x02, 0x02, 0x02, 0x02, 0x0A] := by
  decide

theorem test_text_of_send :
    parseLine [' ', 'S', 'E', 'N', 'D', ' ', '0', ',', ' ', '1', '0', ',', '2', '1', ';', 'x'] =
      some [.send 0 10 21] := rfl

theorem test_text_refused :
    parseLine ['n', 'o', 'p'] = none ∧ parseLine ['T', 'I', 'C', 'K', ' ', '2'] = none := ⟨rfl, rfl⟩

theorem test_first_tick_window :
    TickInFirstHalf 1778 1333 1778 13 ∧ ¬ TickInFirstHalf 1778 1778 1778 1 ∧
      TickInFirstHalf 1778 889 1778 1 := by decide

/-! ## Witnesses: states and operands that meet the hypotheses of each statement -/

theorem witness_EventWordsDecodeAsTabled :
    (0x03 : EventWord).toNat % 8 ∈ [3, 4, 5, 6] ∧ (0x0E : EventWord).toNat % 8 ∈ [3, 4, 5, 6] := by
  decide
theorem witness_OperandIsBitThree :
    decode 0x0A = .ok (.tick 1) ∧ decode 0x00 = .ok .nop ∧ ∀ level, Instr.nop ≠ .tick level := by
  decide
theorem witness_DecodeEncodeAgree :
    (Instr.tick 1).wellFormed = true ∧ decode 0x0A = .ok (.tick 1) := by decide
theorem witness_TraceDecodesFromItsWords :
    decodeTrace [0x07, 0x01, 0x0A] = .ok [.reset, .fall, .tick 1] := by decide
theorem witness_TraceTextReadsBack : ∀ c ∈ [' ', '\t'], c = ' ' ∨ c = '\t' := by simp

theorem witness_StepRoutesEventWord :
    (waiting [0x10] full).inputs = 0x10 :: [] ∧ (waiting [0x08] full).inputs = 0x08 :: [] ∧
      (waiting [0x0A, 0x01] full).inputs = 0x0A :: [0x01] ∧ (0x10 : EventWord).toNat / 16 ≠ 0 := by
  decide
theorem witness_StepRunsDecodedEvent :
    (waiting [0x01, 0x02] State.reset).inputs = 0x01 :: [0x02] ∧ decode 0x01 = .ok .fall ∧
      Instr.fall.wellFormed = true := by decide
theorem witness_ReservedWordsRefused :
    (waiting [0x03] full).inputs = 0x03 :: [] ∧ ReservedWord 0x03 ∧ ReservedWord 0x10 ∧
      ReservedWord 0x08 ∧ ReservedWord 0xFF := by decide
theorem witness_StepTakesOneEventInOrder :
    ∃ t, step (waiting [0x0A, 0x01] full) = .next t ∧ t.inputs = [0x01] := ⟨_, rfl, rfl⟩
theorem witness_IdleStepKeepsState : sampling3.inputs = [] := rfl
theorem witness_DeliveryDoesNotDisturbStep :
    (waiting [0x01] State.reset).inputs ≠ [] ∧ ∃ t, step (waiting [0x01] State.reset) = .next t :=
  ⟨by decide, _, rfl⟩

theorem witness_OutputLevelsAreEnables :
    Inv State.reset.block ∧ Inv sampling3.block ∧ Inv full.block := by decide

theorem witness_RegistersWrittenOnlyAsTabled :
    (∃ t, exec .fall State.reset = .next t ∧ t.block.acc ≠ State.reset.block.acc ∧
      t.block.edgeEn ≠ State.reset.block.edgeEn ∧ t.block.tmrEn ≠ State.reset.block.tmrEn) ∧
    (∃ t, exec .fall full = .next t ∧ t.block.edgePend ≠ full.block.edgePend) ∧
    (∃ t, exec (.tick 0) full = .next t ∧ t.block.cnt ≠ full.block.cnt ∧
      t.block.lastValid ≠ full.block.lastValid) :=
  ⟨⟨_, rfl, by decide, by decide, by decide⟩, ⟨_, rfl, by decide⟩, ⟨_, rfl, by decide, by decide⟩⟩

theorem witness_OutputsOfEachStep :
    (∃ t, exec .fall State.reset = .next t) ∧ Arms .fall State.reset.block ∧
    (∃ t, exec (.tick 0) full = .next t) ∧ Frames (.tick 0) full.block ∧ ¬ RepeatsLast full.block ∧
    Frames (.tick 0) fullHeld.block ∧ RepeatsLast fullHeld.block ∧
    ¬ Arms .nop full.block ∧ ¬ Frames .nop full.block := by
  refine ⟨⟨_, rfl⟩, by decide, ⟨_, rfl⟩, ⟨⟨0, rfl⟩, by decide⟩, by decide, ⟨⟨0, rfl⟩, by decide⟩,
    by decide, by decide, ?_⟩
  rintro ⟨⟨level, h⟩, -⟩
  cases h

theorem witness_EdgePendChoosesNothing : ∃ t, exec (.tick 1) full = .next t := ⟨_, rfl⟩
theorem witness_FallArms :
    State.reset.block.edgeEn = true ∧ Inv State.reset.block := by decide
theorem witness_FallLatches :
    full.block.edgeEn = false ∧ (at' 0x3040 13 false true true 0 0 false).block.edgeEn = false ∧
      (at' 0x3040 13 false true true 0 0 false).block.edgePend = true ∧
      stopped.block.edgeEn = false ∧ stopped.block.tmrEn = false ∧ Instr.fall ≠ .reset ∧
      ∃ t, exec .fall stopped = .next t :=
  ⟨rfl, rfl, rfl, rfl, rfl, by decide, _, rfl⟩
theorem witness_OneSequenceAtATime :
    (∃ t, exec .fall State.reset = .next t ∧ State.reset.block.tmrEn = false ∧
      t.block.tmrEn = true) ∧
    (∃ t, exec (.tick 0) full = .next t ∧ full.block.edgeEn = false ∧ t.block.edgeEn = true) ∧
    (∃ t, exec .fall full = .next t ∧ full.block.edgeEn = false) :=
  ⟨⟨_, rfl, rfl, rfl⟩, ⟨_, rfl, rfl, rfl⟩, ⟨_, rfl, rfl⟩⟩

theorem witness_TickSamplesOneBit :
    (at' 0x1820 12 false false true 0 0 false).block.tmrEn = true ∧
      (at' 0x1820 12 false false true 0 0 false).block.cnt.toNat < 13 ∧
      (at' 0x0000 0 false false true 0 0 false).block.cnt.toNat < 13 := by decide
theorem witness_TickIgnoredWhileStopped : State.reset.block.tmrEn = false := rfl
theorem witness_TickFramesSequence :
    full.block.tmrEn = true ∧ 13 ≤ full.block.cnt.toNat ∧ ¬ RepeatsLast full.block ∧
      fullHeld.block.tmrEn = true ∧ 13 ≤ fullHeld.block.cnt.toNat ∧ RepeatsLast fullHeld.block ∧
      13 ≤ (at' 0 15 true true true 0 0 false).block.cnt.toNat := by decide
theorem witness_LevelReadOnlyBySampling :
    ¬ Samples (.tick 0) full.block ∧ ¬ Samples (.tick 0) State.reset.block :=
  ⟨fun h => absurd h.2.2 (by decide), fun h => absurd h.2.1 (by decide)⟩
theorem witness_SamplingNeverOverflows :
    Inv (at' 0x1FFF 12 false false true 0 0 false).block ∧
      (at' 0x1FFF 12 false false true 0 0 false).block.tmrEn = true ∧
      (at' 0x1FFF 12 false false true 0 0 false).block.cnt.toNat < 13 := by decide

theorem witness_RepeatVerdict : full.block.lastValid = false := rfl
theorem witness_RepeatIsNotDispatched : repeatVerdict ⟨1, 0, 0⟩ fullHeld.block = true := by decide
theorem witness_NewFrameIsDispatchedOnce : repeatVerdict ⟨1, 0, 1⟩ fullHeld.block = false := by decide
theorem witness_AddressDoesNotDecideDispatch :
    Frames (.tick 0) fullHeld.block ∧
      (0x3140 : Acc).toNat &&& 0x3F = fullHeld.block.acc.toNat &&& 0x3F ∧
      ((0x3140 : Acc).toNat >>> 11) &&& 0x1 = (fullHeld.block.acc.toNat >>> 11) &&& 0x1 ∧
      (∃ t, exec (.tick 0) fullHeld = .next t) ∧
      ∃ t, exec (.tick 0) { fullHeld with block := { fullHeld.block with acc := 0x3140 } } =
        .next t :=
  ⟨⟨⟨0, rfl⟩, by decide⟩, by decide, by decide, ⟨_, rfl⟩, ⟨_, rfl⟩⟩

theorem witness_StepKeepsInv :
    Inv full.block ∧ ∃ t, step (waiting [0x02] full) = .next t := ⟨by decide, _, rfl⟩
theorem witness_ReachableStatesAreSound :
    ∃ t, runs 2 { State.reset with inputs := [0x01, 0x0A] } = .next t ∧ t.block.tmrEn = true :=
  ⟨_, rfl, rfl⟩
theorem witness_SamplesFillAccumulator :
    State.reset.block.edgeEn = true ∧ (List.replicate 13 (1 : Bit)).length = 13 ∧
      ∃ s : State, s.block.edgeEn = true ∧
        s.inputs = encodeTrace (.fall :: sampleTicks (List.replicate 13 1)) ++ [] :=
  ⟨rfl, rfl, waiting (encodeTrace (.fall :: sampleTicks (List.replicate 13 1)) ++ []) State.reset,
    rfl, rfl⟩
theorem witness_WidthDoesNotChangeFields :
    13 ≤ 13 ∧ (List.replicate 13 (1 : Bit)).length = 13 := by decide
theorem witness_OneFrameAtFourteenthTick :
    ListenInv State.reset.block ∧
      Instr.reset ∉ Instr.nop :: .fall :: List.replicate 13 (Instr.tick 0) ∧
      tickCount (.nop :: .fall :: List.replicate 13 (Instr.tick 0)) = 13 ∧
      ∃ s : State, ListenInv s.block ∧
        s.inputs = encodeTrace (.fall :: (.nop :: .fall :: List.replicate 13 (Instr.tick 0)) ++
          [.tick 1]) ++ [0x00] :=
  ⟨by decide, by decide, by decide, waiting _ State.reset, by decide, rfl⟩
theorem witness_SendComesOutAsFrame :
    ∃ s : State, ListenInv s.block ∧
      s.inputs = encodeTrace (expandLine (.send 1 31 63)) ++ [] :=
  ⟨waiting _ State.reset, by decide, rfl⟩
theorem witness_HeldButtonDispatchesOnce :
    ∃ s : State, ListenInv s.block ∧
      s.inputs =
        encodeTrace (expandTrace (([1, 5] : List Addr).map fun a => .send 0 a 0)) ++ [] :=
  ⟨waiting _ State.reset, by decide, rfl⟩
theorem witness_TicksAccountForFrames :
    ∃ s : State, ListenInv s.block ∧ Instr.reset ∉ [Instr.fall, .tick 1, .nop, .tick 0] ∧
      ticksOnlyWhileRunning s [.fall, .tick 1, .nop, .tick 0] = true ∧
      s.inputs = encodeTrace [.fall, .tick 1, .nop, .tick 0] ++ [] :=
  ⟨waiting _ State.reset, by decide, by decide, rfl, rfl⟩
theorem witness_SequenceHangsWithoutTicks :
    sampling3.block.edgeEn = false ∧ sampling3.block.tmrEn = true ∧
      (∀ i ∈ [Instr.fall, .nop], i = .nop ∨ i = .fall) ∧
      (waiting [0x01, 0x00] sampling3).inputs = encodeTrace [.fall, .nop] ++ [] := by decide
theorem witness_BothOrdersOfEdgeAndTick : phase full.block = .full := by decide
theorem witness_FirstTickWindow : 1 ≤ 13 ∧ TimingMatches 1778 1333 1778 := by decide

end Sys2Proof.Tests
end

section
/-! The family `10_state.md`: the phases (R22), the reset values (R24) and the sample bit (R28). -/

namespace Sys2Proof.Proofs

open Sys2Proof.Machine Sys2Proof.Laws

/-! ## The sample bit -/

theorem lineAsserted_iff (level : Bit) : lineAsserted level = true ↔ level = 0 := by
  simp [lineAsserted]

/-- R28: inverting the asserted sense of an active-low line gives its electrical level back. -/
@[simp] theorem sampleBit_eq (level : Bit) : sampleBit level = level := by
  rcases BitVec.eq_zero_or_eq_one level with low | high
  · rw [low]; rfl
  · rw [high]; rfl

/-- Settles O16: inverting an active-low reading twice changes nothing. -/
theorem sampleBitIsLineLevel : Obligations.SampleBitIsLineLevel :=
  fun level => ⟨sampleBit_eq level, (lineAsserted_iff level).trans BitVec.toNat_inj.symm⟩

/-! ## The phases -/

/-- The table of R22 read by rows: a state is in one row, and its phase is that row's. -/
theorem phase_cases (b : Block) :
    (phase b = .listen ∧ b.edgeEn = true ∧ b.tmrEn = false) ∨
    (phase b = .sampling ∧ b.edgeEn = false ∧ b.tmrEn = true ∧ b.cnt.toNat < 13) ∨
    (phase b = .full ∧ b.edgeEn = false ∧ b.tmrEn = true ∧ 13 ≤ b.cnt.toNat) ∨
    (phase b = .anomalous ∧ b.edgeEn = b.tmrEn) := by
  cases edge : b.edgeEn <;> cases run : b.tmrEn
  case true.false => simp [phase, edge, run]
  case false.true =>
    rcases Nat.lt_or_ge b.cnt.toNat 13 with more | done
    · simp [phase, samplesDone, edge, run, more]
    · simp [phase, samplesDone, edge, run, done]
  all_goals simp [phase, edge, run]

theorem phase_eq_listen_iff (b : Block) :
    phase b = .listen ↔ b.edgeEn = true ∧ b.tmrEn = false := by
  rcases phase_cases b with row | row | row | row <;> simp [row]

theorem phase_eq_sampling_iff (b : Block) :
    phase b = .sampling ↔ b.edgeEn = false ∧ b.tmrEn = true ∧ b.cnt.toNat < 13 := by
  rcases phase_cases b with row | row | row | row <;> simp +contextual [row]

theorem phase_eq_full_iff (b : Block) :
    phase b = .full ↔ b.edgeEn = false ∧ b.tmrEn = true ∧ 13 ≤ b.cnt.toNat := by
  rcases phase_cases b with row | row | row | row <;> simp +contextual [row]

theorem phase_eq_anomalous_iff (b : Block) :
    phase b = .anomalous ↔ b.edgeEn = b.tmrEn := by
  rcases phase_cases b with row | row | row | row <;> simp [row]

/-- Every event answers the next state that its effect gives. -/
theorem exec_eq_next (i : Instr) (s : State) :
    exec i s = .next { s with
      block := (effectOf i s.block).block, outputs := s.outputs ++ (effectOf i s.block).outs } := by
  rw [exec_eq_complete, complete_eq]

/-- Settles O15: the rows of the table exclude one another, and no event's meaning stops. -/
theorem phasesAndTotality : Obligations.PhasesAndTotality :=
  ⟨fun b => ⟨phase_eq_listen_iff b, phase_eq_sampling_iff b, phase_eq_full_iff b,
    phase_eq_anomalous_iff b⟩, fun i s => ⟨_, exec_eq_next i s⟩⟩

/-! ## The reset values -/

theorem phase_reset : phase Block.reset = .listen :=
  (phase_eq_listen_iff Block.reset).mpr ⟨rfl, rfl⟩

/-- Settles O14: RESET's effect is the register vector of power-on, whatever the state before. -/
theorem resetValues : Obligations.ResetValues :=
  ⟨rfl, phase_reset, fun s => ⟨_, exec_eq_next .reset s, rfl, phase_reset⟩⟩

end Sys2Proof.Proofs
end

section
/-! The family `30_encoding.md`: what the decoder answers (R40 to R43) and how a step routes its event
word (R42). -/

namespace Sys2Proof.Proofs

open Sys2Proof.Machine Sys2Proof.Laws

/-! ## The decoder and the words of the events -/

/-- A word is put together from its fields. -/
theorem eventWord_of_fields {ev : EventWord} {rsvd : BitVec 4} {level : Bit} {code : BitVec 3}
    (hrsvd : rsvdField ev = rsvd) (hlevel : levelField ev = level) (hcode : codeField ev = code) :
    eventWord rsvd level code = ev := by
  rw [← hrsvd, ← hlevel, ← hcode, eventWord_fields]

/-- All that the decoder can answer: the event whose word it was given, or the rejection of that
word (R42). -/
theorem decode_cases (ev : EventWord) :
    (∃ i, decode ev = .ok i ∧ encode i = ev) ∨ decode ev = .error (.reservedEvent ev) := by
  simp only [decode, withoutLevel, ne_eq, ite_not]
  split_ifs with rsvd nop level fall level tick reset level
  · exact .inl ⟨.nop, rfl, eventWord_of_fields rsvd level nop⟩
  · exact .inr rfl
  · exact .inl ⟨.fall, rfl, eventWord_of_fields rsvd level fall⟩
  · exact .inr rfl
  · exact .inl ⟨.tick (levelField ev), rfl, eventWord_of_fields rsvd rfl tick⟩
  · exact .inl ⟨.reset, rfl, eventWord_of_fields rsvd level reset⟩
  · exact .inr rfl
  · exact .inr rfl
  · exact .inr rfl

@[simp] theorem decode_encode (i : Instr) : decode (encode i) = .ok i := by
  cases i <;> simp [decode, encode, withoutLevel]

theorem encode_of_decode {ev : EventWord} {i : Instr} (decoded : decode ev = .ok i) :
    encode i = ev := by
  rcases decode_cases ev with ⟨j, accepted, word⟩ | rejected
  · obtain rfl : j = i := Except.ok.inj (accepted.symm.trans decoded)
    exact word
  · rw [rejected] at decoded
    contradiction

/-- The decoder reads an event from that event's word and from no other. -/
theorem decode_eq_ok_iff (ev : EventWord) (i : Instr) : decode ev = .ok i ↔ ev = encode i :=
  ⟨fun decoded => (encode_of_decode decoded).symm, fun word => word ▸ decode_encode i⟩

theorem wellFormedWord_encode (i : Instr) : wellFormedWord (encode i) = true := by
  cases i with
  | nop => exact EncodedWordWellFormed.nop
  | fall => exact EncodedWordWellFormed.fall
  | tick level => exact EncodedWordWellFormed.tick level
  | reset => exact EncodedWordWellFormed.reset

/-- R43: a reserved word is rejected, since no event has it for its word. -/
theorem decode_of_reserved {ev : EventWord} (reserved : ReservedWord ev) :
    decode ev = .error (.reservedEvent ev) := by
  rcases decode_cases ev with ⟨i, -, rfl⟩ | rejected
  · exact absurd reserved ((wellFormedWord_iff_not_reserved _).mp (wellFormedWord_encode i))
  · exact rejected

/-- Settles O1: each tabled word is its event's encoding, and a reserved code makes the word reserved. -/
theorem eventWordsDecodeAsTabled : Obligations.EventWordsDecodeAsTabled :=
  ⟨fun ev => decode_eq_ok_iff ev .nop, fun ev => decode_eq_ok_iff ev .fall,
    fun ev => decode_eq_ok_iff ev (.tick 0), fun ev => decode_eq_ok_iff ev (.tick 1),
    fun ev => decode_eq_ok_iff ev .reset, fun _ code => decode_of_reserved (.inr (.inl code))⟩

/-! ## The fields by the word's number -/

theorem levelField_toNat (ev : EventWord) : (levelField ev).toNat = ev.toNat / 8 % 2 :=
  (fields_toNat ev).2.1

theorem rsvdField_eq_iff (ev : EventWord) (rsvd : BitVec 4) :
    rsvdField ev = rsvd ↔ ev.toNat / 16 = rsvd.toNat := by
  rw [← BitVec.toNat_inj, (fields_toNat ev).1]

theorem levelField_eq_iff (ev : EventWord) (level : Bit) :
    levelField ev = level ↔ ev.toNat / 8 % 2 = level.toNat := by
  rw [← BitVec.toNat_inj, levelField_toNat]

theorem codeField_eq_iff (ev : EventWord) (code : BitVec 3) :
    codeField ev = code ↔ ev.toNat % 8 = code.toNat := by
  rw [← BitVec.toNat_inj, (fields_toNat ev).2.2]

theorem levelField_eq_ofNat (ev : EventWord) :
    levelField ev = BitVec.ofNat 1 (ev.toNat / 8 % 2) := by
  rw [← levelField_toNat, BitVec.ofNat_toNat, BitVec.setWidth_eq]

/-- Settles O2: the word is the decoded event's encoding, whose level field is the operand of TICK and
0 for the other events. -/
theorem operandIsBitThree : Obligations.OperandIsBitThree := by
  intro ev i decoded
  obtain rfl := encode_of_decode decoded
  rw [← levelField_toNat]
  cases i with
  | tick level => simp [encode]
  | nop | fall | reset => simp [encode]

/-! ## The routing of a step -/

/-- The decoder's branches over the number of the word (R42). -/
theorem decode_eq_by_toNat (ev : EventWord) :
    decode ev =
      if ev.toNat / 16 ≠ 0 then .error (.reservedEvent ev)
      else if ev.toNat % 8 = 0 then
        if ev.toNat / 8 % 2 ≠ 0 then .error (.reservedEvent ev) else .ok .nop
      else if ev.toNat % 8 = 1 then
        if ev.toNat / 8 % 2 ≠ 0 then .error (.reservedEvent ev) else .ok .fall
      else if ev.toNat % 8 = 2 then .ok (.tick (BitVec.ofNat 1 (ev.toNat / 8 % 2)))
      else if ev.toNat % 8 = 7 then
        if ev.toNat / 8 % 2 ≠ 0 then .error (.reservedEvent ev) else .ok .reset
      else .error (.reservedEvent ev) := by
  simp only [decode, withoutLevel, rsvdField_eq_iff, levelField_eq_iff, codeField_eq_iff,
    ← levelField_eq_ofNat, BitVec.reduceToNat, ne_eq, ite_not]

/-- A step on a word that decodes is that event's meaning (R42). -/
theorem step_eq_exec {s : State} {ev : EventWord} {rest : List EventWord} {i : Instr}
    (waiting : s.inputs = ev :: rest) (decoded : decode ev = .ok i) :
    step s = exec i { s with inputs := rest } := by
  rw [step_of_decoded waiting decoded, exec_eq_complete]

/-- A step on a word that the decoder rejects is refused with the reason (R42, R43). -/
theorem step_eq_refused {s : State} {ev : EventWord} {rest : List EventWord}
    (waiting : s.inputs = ev :: rest) (rejected : decode ev = .error (.reservedEvent ev)) :
    step s = .refused (.reservedEvent ev) := by
  simp [step, takeEvent_of_cons waiting, rejected]

/-- Settles O7: in each branch the decoder's answer over the word's number is the step's. -/
theorem stepRoutesEventWord : Obligations.StepRoutesEventWord := by
  intro s ev rest waiting
  have decoded := decode_eq_by_toNat ev
  split_ifs at decoded ⊢ with rsvd nop level fall level tick reset level
  · exact step_eq_refused waiting decoded
  · exact step_eq_refused waiting decoded
  · exact step_eq_exec waiting decoded
  · exact step_eq_refused waiting decoded
  · exact step_eq_exec waiting decoded
  · exact step_eq_exec waiting decoded
  · exact step_eq_refused waiting decoded
  · exact step_eq_exec waiting decoded
  · exact step_eq_refused waiting decoded

end Sys2Proof.Proofs
end

section
/-! The family `40_edge_detector.md`: FALL's routing (R48), FALL.ARM (R49) and FALL.LATCH (R50). -/

namespace Sys2Proof.Proofs

open Sys2Proof.Machine Sys2Proof.Safety Sys2Proof.Laws

/-! ## The two operations of FALL -/

theorem exec_fall_of_enabled {s : State} (enabled : s.block.edgeEn = true) :
    exec .fall s = complete (fallArm s.block) s := by
  rw [exec_eq_complete, effectOf, fallEffect_of_enabled enabled]

theorem exec_fall_of_masked {s : State} (masked : s.block.edgeEn = false) :
    exec .fall s = .next { s with block := { s.block with edgePend := true } } := by
  rw [exec_eq_complete, effectOf, fallEffect_of_masked masked, complete_eq, fallLatch_block,
    fallLatch_outs, List.append_nil]

/-- Settles O21: the split on EDGE_EN is FALL's effect itself, and bit 3 of 0x09 makes that word
reserved. -/
theorem fallRouting : Obligations.FallRouting :=
  ⟨exec_eq_complete .fall, decode_encode .fall, decode_of_reserved (by decide)⟩

/-! ## FALL.ARM -/

/-- Under R23's invariant only LISTEN has EDGE_EN = 1. -/
theorem listenInv_of_edgeEn {b : Block} (inv : Inv b) (enabled : b.edgeEn = true) :
    ListenInv b := by
  obtain ⟨listen | ⟨masked, -⟩, -⟩ := inv
  · exact listen
  · rw [masked] at enabled
    contradiction

/-- Settles O22: the effect is FALL.ARM's, and the reachable states that arm are in LISTEN, where ACC and
CNT are 0. -/
theorem fallArms : Obligations.FallArms := by
  refine fun s enabled => ⟨exec_fall_of_enabled enabled, fun inv => ?_⟩
  obtain ⟨-, -, cnt, acc, -⟩ := listenInv_of_edgeEn inv enabled
  exact ⟨by rw [acc]; rfl, cnt⟩

/-! ## FALL.LATCH -/

/-- An edge that is already pending is latched again to no effect. -/
theorem fallLatch_block_of_pending {b : Block} (pending : b.edgePend = true) :
    (fallLatch b).block = b :=
  block_ext rfl rfl rfl pending.symm rfl rfl rfl rfl

/-- With both enables off no event but RESET arms, samples or frames: what is left is FALL.LATCH and the
operations that change nothing. -/
theorem effectOf_block_of_stopped {i : Instr} {b : Block} (masked : b.edgeEn = false)
    (stopped : b.tmrEn = false) (notReset : i ≠ .reset) :
    (effectOf i b).block = b ∨ (effectOf i b).block = { b with edgePend := true } := by
  cases i with
  | nop => exact .inl rfl
  | fall => exact .inr (by rw [effectOf, fallEffect_of_masked masked, fallLatch_block])
  | tick level =>
    exact .inl (by rw [effectOf, tickEffect_of_stopped level stopped, tickIgnored_block])
  | reset => contradiction

/-- Settles O23: a masked FALL is FALL.LATCH, which sets EDGE_PEND; once it is set, and with the sampler
stopped too, nothing else is left to change. -/
theorem fallLatches : Obligations.FallLatches := by
  refine fun s masked => ⟨exec_fall_of_masked masked, fun pending => ?_,
    fun stopped i t notReset answered => ?_⟩
  · rw [exec_fall_of_masked masked, ← fallLatch_block, fallLatch_block_of_pending pending]
  · rw [exec_eq_next] at answered
    obtain rfl := Host.Outcome.next.inj answered
    exact effectOf_block_of_stopped masked stopped notReset

end Sys2Proof.Proofs
end

section
/-! The family `41_bit_sampler.md`: the fields of a frame word (R57), TICK's routing (R53) and its three
operations (R54 to R56). -/

namespace Sys2Proof.Proofs

open Sys2Proof.Machine Sys2Proof.Safety Sys2Proof.Laws

/-! ## The fields of a frame word -/

/-- A field taken from a word is the word's number shifted down and masked to the field's width. -/
theorem extractLsb'_toNat_eq_mask {n : Nat} (w : BitVec n) (start width : Nat) :
    (w.extractLsb' start width).toNat = (w.toNat >>> start) &&& (2 ^ width - 1) := by
  rw [BitVec.extractLsb'_toNat, Nat.and_two_pow_sub_one_eq_mod]

/-- Settles O29: each mask of the source is 2 to the field's width, less one. -/
theorem frameFieldsOfAnyWidth : Obligations.FrameFieldsOfAnyWidth :=
  fun _ w => ⟨extractLsb'_toNat_eq_mask w 6 5, extractLsb'_toNat_eq_mask w 0 6,
    extractLsb'_toNat_eq_mask w 11 1⟩

/-! ## The routing of TICK -/

theorem exec_tick_of_stopped (level : Bit) {s : State} (stopped : s.block.tmrEn = false) :
    exec (.tick level) s = complete (tickIgnored s.block) s := by
  rw [exec_eq_complete, effectOf, tickEffect_of_stopped level stopped]

theorem exec_tick_of_sampling (level : Bit) {s : State} (run : s.block.tmrEn = true)
    (more : s.block.cnt.toNat < 13) :
    exec (.tick level) s = complete (tickSample level s.block) s := by
  rw [exec_eq_complete, effectOf, tickEffect_of_sampling level run more]

theorem exec_tick_of_full (level : Bit) {s : State} (run : s.block.tmrEn = true)
    (done : 13 ≤ s.block.cnt.toNat) :
    exec (.tick level) s = complete (tickFrame s.block) s := by
  rw [exec_eq_complete, effectOf, tickEffect_of_full level run done]

/-- Settles O25: TMR_EN and then CNT pick the branch, and TICK's words are its two encodings. -/
theorem tickRouting : Obligations.TickRouting := by
  refine ⟨fun level s => ?_, decode_encode (.tick 0), decode_encode (.tick 1)⟩
  split_ifs with stopped more
  · exact exec_tick_of_stopped level stopped
  · exact exec_tick_of_sampling level (Bool.eq_true_of_not_eq_false stopped) more
  · exact exec_tick_of_full level (Bool.eq_true_of_not_eq_false stopped) (Nat.not_lt.mp more)

/-- Settles O27: TICK.IGNORED is the operation that changes and emits nothing. -/
theorem tickIgnoredWhileStopped : Obligations.TickIgnoredWhileStopped := by
  intro level s stopped
  rw [exec_tick_of_stopped level stopped, complete_eq, tickIgnored_block, tickIgnored_outs,
    List.append_nil]

/-! ## TICK.SAMPLE -/

/-- The accumulator's step by numbers, the guard and the truncation kept (R54). -/
theorem shiftIn_toNat_guarded {n : Nat} (level : Bit) (acc : BitVec n) (wide : 0 < n) :
    (shiftIn level acc).toNat =
      (if acc.toNat ≠ 0 then acc.toNat * 2 % 2 ^ n else acc.toNat) ||| level.toNat := by
  have bit : (level.setWidth n).toNat = level.toNat := BitVec.toNat_setWidth_of_le wide
  rw [shiftIn_eq, sampleBit_eq, BitVec.toNat_or, bit]
  congr 1
  by_cases zero : acc = 0
  · simp [zero]
  · have nonzero : acc.toNat ≠ 0 := by simpa using BitVec.toNat_ne.mp zero
    rw [if_neg zero, if_pos nonzero, BitVec.toNat_shiftLeft, Nat.shiftLeft_eq, Nat.pow_one]

/-- Settles O26: the accumulator's step by numbers, and below 13 the 4-bit count does not wrap. -/
theorem tickSamplesOneBit : Obligations.TickSamplesOneBit := by
  intro level s run more
  have count : (s.block.cnt + 1).toNat = s.block.cnt.toNat + 1 := by bv_omega
  refine ⟨shiftIn level s.block.acc, s.block.cnt + 1,
    shiftIn_toNat_guarded level s.block.acc (by decide), count, ?_⟩
  rw [exec_tick_of_sampling level run more, complete_eq, tickSample_block, tickSample_outs,
    List.append_nil]

/-! ## TICK.FRAME -/

/-- The verdict is "repeat" exactly when a frame is held and command and toggle are its own (R63). -/
theorem repeatVerdict_iff (f : DecodedFrame) (b : Block) :
    repeatVerdict f b = true ↔
      b.lastValid = true ∧ f.command = b.lastCmd ∧ f.toggle = b.lastTog := by
  simp [repeatVerdict, and_assoc]

/-- The verdict on the frame in ACC, by the numbers of ACC and RepeatState. -/
theorem repeatVerdict_decodeFrame_iff (b : Block) :
    repeatVerdict (decodeFrame b.acc) b = true ↔ RepeatsLast b := by
  obtain ⟨-, command, toggle⟩ := frameFieldsOfAnyWidth 16 b.acc
  rw [repeatVerdict_iff, ← BitVec.toNat_inj, ← BitVec.toNat_inj, command, toggle]

theorem suppress_of_repeat {f : DecodedFrame} {b : Block} (verdict : repeatVerdict f b = true) :
    suppress f b = suppressRepeat f b := by
  rw [suppress_of_verdict, verdict, cond_true]

theorem suppress_of_new {f : DecodedFrame} {b : Block} (verdict : repeatVerdict f b = false) :
    suppress f b = suppressNew f b := by
  rw [suppress_of_verdict, verdict, cond_false]

/-- TICK.FRAME under the verdict "repeat": RepeatState is kept (R56, R64). -/
theorem tickFrame_of_repeat {b : Block} (repeats : RepeatsLast b) :
    tickFrame b =
      { block := { b with tmrEn := false, cnt := 0, acc := 0, edgeEn := true, edgePend := false }
        outs := [.timerStop, .frame (decodeFrame b.acc).address (decodeFrame b.acc).command
          (decodeFrame b.acc).toggle true] } := by
  rw [tickFrame, suppress_of_repeat ((repeatVerdict_decodeFrame_iff b).mpr repeats)]
  rfl

/-- TICK.FRAME under the verdict "new": RepeatState takes the frame (R56, R65). -/
theorem tickFrame_of_new {b : Block} (new : ¬ RepeatsLast b) :
    tickFrame b =
      { block := ⟨0, 0, true, false, false, (decodeFrame b.acc).command,
          (decodeFrame b.acc).toggle, true⟩
        outs := [.timerStop, .frame (decodeFrame b.acc).address (decodeFrame b.acc).command
          (decodeFrame b.acc).toggle false, .dispatch (decodeFrame b.acc).command] } := by
  have verdict := eq_false_of_ne_true (mt (repeatVerdict_decodeFrame_iff b).mp new)
  rw [tickFrame, suppress_of_new verdict]
  rfl

/-- Settles O28: the fields are those of ACC, and SUPPRESS takes one of its two verdicts. -/
theorem tickFramesSequence : Obligations.TickFramesSequence := by
  intro level s run done
  obtain ⟨address, command, toggle⟩ := frameFieldsOfAnyWidth 16 s.block.acc
  refine ⟨_, _, _, address, command, toggle, fun repeats => ?_, fun new => ?_⟩
  · rw [exec_tick_of_full level run done, tickFrame_of_repeat repeats, complete_eq]
  · rw [exec_tick_of_full level run done, tickFrame_of_new new, complete_eq]

end Sys2Proof.Proofs
end

section
/-! The family `42_repeat_suppression.md`: the verdict (R63), SUPPRESS's two effects (R64, R65) and the
output events of every step (R67). -/

namespace Sys2Proof.Proofs

open Sys2Proof.Machine Sys2Proof.Safety Sys2Proof.Laws

/-! ## The verdict and its effects -/

theorem repeatVerdict_withAddress (f : DecodedFrame) (b : Block) (address : Addr) :
    repeatVerdict { f with address := address } b = repeatVerdict f b := rfl

/-- A frame repeats only a frame that is held (R63). -/
theorem repeatVerdict_of_noneHeld (f : DecodedFrame) {b : Block} (noneHeld : b.lastValid = false) :
    repeatVerdict f b = false := by
  refine eq_false_of_ne_true fun verdict => ?_
  obtain ⟨held, -, -⟩ := (repeatVerdict_iff f b).mp verdict
  rw [noneHeld] at held
  contradiction

/-- Settles O33: the verdict reads command and toggle of the frame, and those only against a held one. -/
theorem repeatVerdict_spec : Obligations.RepeatVerdict :=
  fun f b => ⟨repeatVerdict_iff f b, repeatVerdict_withAddress f b, repeatVerdict_of_noneHeld f⟩

/-- Settles O34: the verdict "repeat" selects the effect that keeps the registers. -/
theorem repeatIsNotDispatched : Obligations.RepeatIsNotDispatched :=
  fun _ _ verdict => suppress_of_repeat verdict

/-- Settles O35: the verdict "new" selects the effect that takes the frame and dispatches it. -/
theorem newFrameIsDispatchedOnce : Obligations.NewFrameIsDispatchedOnce :=
  fun _ _ verdict => suppress_of_new verdict

/-! ## The output events of every step -/

theorem effectOf_of_arms {i : Instr} {b : Block} (arms : Arms i b) : effectOf i b = fallArm b := by
  obtain ⟨rfl, enabled⟩ := arms
  exact fallEffect_of_enabled enabled

theorem effectOf_of_frames {i : Instr} {b : Block} (frames : Frames i b) :
    effectOf i b = tickFrame b := by
  obtain ⟨⟨level, rfl⟩, run, done⟩ := frames
  exact tickEffect_of_full level run done

/-- R67: of the seven operations only FALL.ARM and TICK.FRAME emit. -/
theorem effectOf_outs_of_silent {i : Instr} {b : Block} (notArms : ¬ Arms i b)
    (notFrames : ¬ Frames i b) : (effectOf i b).outs = [] := by
  rcases effectOf_cases i b with ⟨-, nop⟩ | ⟨arms, -⟩ | ⟨-, latch⟩ | ⟨-, -, ignored⟩ |
    ⟨level, -, -, -, sample⟩ | ⟨frames, -⟩ | ⟨-, reset⟩
  · rw [nop, unchanged_outs]
  · contradiction
  · rw [latch, fallLatch_outs]
  · rw [ignored, tickIgnored_outs]
  · rw [sample, tickSample_outs]
  · contradiction
  · rw [reset, resetEffect_outs]

/-- Settles O19: what a step appends is its effect's outputs: FALL.ARM's, TICK.FRAME's under one of the
two verdicts, or none. -/
theorem outputsOfEachStep : Obligations.OutputsOfEachStep := by
  rintro i s t f answered rfl
  rw [exec_eq_next] at answered
  obtain rfl := Host.Outcome.next.inj answered
  refine ⟨(effectOf i s.block).outs, rfl, fun arms => ?_, fun frames repeats => ?_,
    fun frames new => ?_, effectOf_outs_of_silent⟩
  · rw [effectOf_of_arms arms, fallArm_outs]
  · rw [effectOf_of_frames frames, tickFrame_of_repeat repeats]
  · rw [effectOf_of_frames frames, tickFrame_of_new new]

end Sys2Proof.Proofs
end

section
/-! The family `43_control.md`: the control events NOP (R69) and RESET (R70). -/

namespace Sys2Proof.Proofs

open Sys2Proof.Machine Sys2Proof.Laws

@[simp] theorem exec_nop (s : State) : exec .nop s = .next s := by
  rw [exec_eq_complete, effectOf, complete_eq, unchanged_block, unchanged_outs, List.append_nil]

@[simp] theorem exec_reset (s : State) : exec .reset s = .next { s with block := Block.reset } := by
  rw [exec_eq_complete, effectOf, complete_eq, resetEffect_block, resetEffect_outs,
    List.append_nil]

/-- Settles O37: NOP is the idle step, and bit 3 of 0x08 makes that word reserved. -/
theorem nopIsIdle : Obligations.NopIsIdle :=
  ⟨exec_nop, decode_encode .nop, decode_of_reserved (by decide)⟩

/-- Settles O38: the block after RESET is that of power-on and does not depend on the block before, so the
second RESET answers the same state; bit 3 of 0x0F makes that word reserved. -/
theorem resetWritesEveryRegister : Obligations.ResetWritesEveryRegister := by
  refine ⟨fun s => ⟨_, exec_reset s, rfl, rfl, rfl, ?again⟩, decode_encode .reset,
    decode_of_reserved (by decide)⟩
  case again => exact exec_reset { s with block := Block.reset }

end Sys2Proof.Proofs
end

section
/-! The family `other`: the decoder on words and traces, what a step takes and keeps, the invariant
of R23, and the runs of whole traces. -/

namespace Sys2Proof.Proofs

open Sys2Proof.Machine Sys2Proof.Safety Sys2Proof.Laws

/-! ## The decoder on words and on traces -/

/-- The decoder rejects no other words than those of R43. -/
theorem reservedWord_of_rejected {ev : EventWord} {r : DecodeReject}
    (rejected : decode ev = .error r) : ReservedWord ev := by
  rw [decode_eq_by_toNat] at rejected
  split_ifs at rejected with rsvd nop level fall level tick reset level
  · exact .inl rsvd
  · exact .inr (.inr ⟨by simp [nop], by omega⟩)
  · exact .inr (.inr ⟨by simp [fall], by omega⟩)
  · exact .inr (.inr ⟨by simp [reset], by omega⟩)
  · refine .inr (.inl ?_)
    simp only [List.mem_cons, List.not_mem_nil, or_false]
    omega

/-- The words that are not reserved are the words of the events. -/
theorem not_reservedWord_iff (ev : EventWord) : ¬ ReservedWord ev ↔ ∃ i, encode i = ev := by
  constructor
  · intro assigned
    rcases decode_cases ev with ⟨i, -, word⟩ | rejected
    · exact ⟨i, word⟩
    · exact absurd (reservedWord_of_rejected rejected) assigned
  · rintro ⟨i, rfl⟩
    exact (wellFormedWord_iff_not_reserved _).mp (wellFormedWord_encode i)

theorem exists_decode_iff (ev : EventWord) : (∃ i, decode ev = .ok i) ↔ ∃ i, encode i = ev :=
  exists_congr fun i => (decode_eq_ok_iff ev i).trans eq_comm

/-- Settles O3: the words that decode are the words of the events, and those are the well-formed
ones. -/
theorem decodeEncodeAgree : Obligations.DecodeEncodeAgree :=
  ⟨fun i _ => decode_encode i, fun _ _ => encode_of_decode, fun ev =>
    (wellFormedWord_iff_not_reserved ev).trans <|
      (not_reservedWord_iff ev).trans (exists_decode_iff ev).symm⟩

@[simp] theorem decodeTrace_encodeTrace (events : List Instr) :
    decodeTrace (encodeTrace events) = .ok events := by
  induction events with
  | nil => rfl
  | cons i is ih => simp [decodeTrace, ih]

theorem encodeTrace_of_decodeTrace {words : List EventWord} {events : List Instr}
    (decoded : decodeTrace words = .ok events) : encodeTrace events = words := by
  induction words generalizing events with
  | nil =>
    obtain rfl := Except.ok.inj decoded
    rfl
  | cons ev rest ih =>
    rw [decodeTrace] at decoded
    split at decoded
    · contradiction
    · next i first =>
      split at decoded
      · contradiction
      · next is later =>
        obtain rfl := Except.ok.inj decoded
        rw [encodeTrace_cons, encode_of_decode first, ih later]

/-- Settles O4: the lists of words that decode are the encoded traces, that is, the lists of words
of events. -/
theorem traceDecodesFromItsWords : Obligations.TraceDecodesFromItsWords := by
  refine ⟨decodeTrace_encodeTrace, fun _ _ => encodeTrace_of_decodeTrace, fun words => ?_⟩
  calc (∃ events, decodeTrace words = .ok events)
      ↔ ∃ events, encodeTrace events = words :=
        exists_congr fun events =>
          ⟨encodeTrace_of_decodeTrace, fun word => word ▸ decodeTrace_encodeTrace events⟩
    _ ↔ ∀ ev ∈ words, ∃ i, encode i = ev :=
        Set.ext_iff.mp (Set.range_list_map encode) words
    _ ↔ ∀ ev ∈ words, ¬ ReservedWord ev :=
        forall₂_congr fun ev _ => (not_reservedWord_iff ev).symm

/-! ## The step -/

theorem step_of_idle {s : State} (waiting : s.inputs = []) : step s = .next s := by
  simp [step, takeEvent_of_nil waiting]

theorem step_of_encoded {s : State} {i : Instr} {rest : List EventWord}
    (waiting : s.inputs = encode i :: rest) : step s = exec i { s with inputs := rest } :=
  step_eq_exec waiting (decode_encode i)

theorem step_of_reserved {s : State} {ev : EventWord} {rest : List EventWord}
    (waiting : s.inputs = ev :: rest) (reserved : ReservedWord ev) :
    step s = .refused (.reservedEvent ev) :=
  step_eq_refused waiting (decode_of_reserved reserved)

/-- All that can wait when a step begins: nothing, an event's word, or a reserved word. -/
theorem inputs_cases (s : State) :
    s.inputs = [] ∨ (∃ i rest, s.inputs = encode i :: rest) ∨
      ∃ ev rest, s.inputs = ev :: rest ∧ ReservedWord ev := by
  rcases s.inputs with - | ⟨ev, rest⟩
  · exact .inl rfl
  · by_cases reserved : ReservedWord ev
    · exact .inr (.inr ⟨ev, rest, rfl, reserved⟩)
    · obtain ⟨i, rfl⟩ := (not_reservedWord_iff ev).mp reserved
      exact .inr (.inl ⟨i, rest, rfl⟩)

/-- All that a step can do when it answers a next state: nothing, or the effect of the event whose
word waited. -/
theorem step_next_cases {s t : State} (answered : step s = .next t) :
    (s.inputs = [] ∧ t = s) ∨
    ∃ i rest, s.inputs = encode i :: rest ∧
      t = { block := (effectOf i s.block).block
            inputs := rest
            outputs := s.outputs ++ (effectOf i s.block).outs } := by
  rcases inputs_cases s with empty | ⟨i, rest, waiting⟩ | ⟨ev, rest, waiting, reserved⟩
  · rw [step_of_idle empty] at answered
    exact .inl ⟨empty, (Host.Outcome.next.inj answered).symm⟩
  · rw [step_of_encoded waiting, exec_eq_next] at answered
    exact .inr ⟨i, rest, waiting, (Host.Outcome.next.inj answered).symm⟩
  · rw [step_of_reserved waiting reserved] at answered
    contradiction

/-- Settles O8: the step's one rule about a word that decodes. -/
theorem stepRunsDecodedEvent : Obligations.StepRunsDecodedEvent :=
  fun _ _ _ _ waiting decoded _ => step_eq_exec waiting decoded

/-- R43: 240 words have a reserved high half, and of the other 16 all but the five event words are
reserved. -/
theorem reservedWords_count :
    ((List.range 256).filter fun n => decide (ReservedWord (BitVec.ofNat 8 n))).length = 251 := by
  have highHalf : ∀ n ∈ (List.range 240).map (16 + ·),
      decide (ReservedWord (BitVec.ofNat 8 n)) = true := by
    simp only [List.mem_map, List.mem_range, forall_exists_index, and_imp, decide_eq_true_eq]
    rintro _ n bound rfl
    refine .inl ?_
    rw [BitVec.toNat_ofNat]
    omega
  have lowHalf : ((List.range 16).filter fun n =>
      decide (ReservedWord (BitVec.ofNat 8 n))).length = 11 := by decide
  rw [List.range_add (n := 16) (m := 240), List.filter_append, List.length_append, lowHalf,
    List.filter_eq_self.mpr highHalf, List.length_map, List.length_range]

/-- Settles O9: the refusal of the first step is the run's. -/
theorem reservedWordsRefused : Obligations.ReservedWordsRefused := by
  refine ⟨fun s ev rest waiting reserved => ?_, reservedWords_count⟩
  have refused := step_of_reserved waiting reserved
  exact ⟨refused, fun k => runs_of_refused k refused⟩

/-- Settles O10: each of the three things that can wait has its outcome. -/
theorem stepStopsOnlyOnReservedWord : Obligations.StepStopsOnlyOnReservedWord := by
  intro s
  rcases inputs_cases s with empty | ⟨i, rest, waiting⟩ | ⟨ev, rest, waiting, reserved⟩
  · exact .inl ⟨s, step_of_idle empty⟩
  · exact .inl ⟨_, (step_of_encoded waiting).trans (exec_eq_next i _)⟩
  · exact .inr ⟨ev, rest, waiting, reserved, step_of_reserved waiting reserved⟩

/-- Settles O11: an idle step has no word to take, and an event's step takes its own. -/
theorem stepTakesOneEventInOrder : Obligations.StepTakesOneEventInOrder := by
  intro s t answered
  rcases step_next_cases answered with ⟨empty, rfl⟩ | ⟨i, rest, waiting, rfl⟩
  · exact ⟨by rw [empty, List.tail_nil], [], (List.append_nil _).symm⟩
  · exact ⟨by rw [waiting, List.tail_cons], (effectOf i s.block).outs, rfl⟩

/-- Settles O12: nothing is taken, so nothing is done. -/
theorem idleStepKeepsState : Obligations.IdleStepKeepsState :=
  fun _ => step_of_idle

/-- Settles O13: the event that waited is still the oldest word, and its effect reads only the
registers. -/
theorem deliveryDoesNotDisturbStep : Obligations.DeliveryDoesNotDisturbStep := by
  intro s t evs nonempty answered
  rcases step_next_cases answered with ⟨empty, -⟩ | ⟨i, rest, waiting, rfl⟩
  · contradiction
  · have delivered : (deliver evs s).inputs = encode i :: (rest ++ evs) := by
      rw [deliver_inputs, waiting, List.cons_append]
    rw [step_of_encoded delivered, exec_eq_next]
    rfl

/-! ## Counting outputs -/

theorem frameCount_append (xs ys : List OutEvent) :
    frameCount (xs ++ ys) = frameCount xs + frameCount ys := by
  induction xs with
  | nil => simp [frameCount]
  | cons x xs ih => cases x <;> simp [frameCount, ih, Nat.add_right_comm]

theorem dispatched_append (xs ys : List OutEvent) :
    dispatched (xs ++ ys) = dispatched xs ++ dispatched ys := by
  induction xs with
  | nil => rfl
  | cons x xs ih => cases x <;> simp [dispatched, ih]

/-! ## TICK.FRAME's result, and what no rule reads -/

/-- The registers in LISTEN with a frame held: where every TICK.FRAME ends (R56, R64, R65). -/
def listenHolding (command : Cmd) (toggle : Bit) : Block :=
  ⟨0, 0, true, false, false, command, toggle, true⟩

/-- What TICK.FRAME emits for a frame and its verdict, in order (R67). -/
def frameOuts (f : DecodedFrame) (rep : Bool) : List OutEvent :=
  [.timerStop, .frame f.address f.command f.toggle rep] ++ if rep then [] else [.dispatch f.command]

@[simp] theorem frameCount_frameOuts (f : DecodedFrame) (rep : Bool) :
    frameCount (frameOuts f rep) = 1 := by
  cases rep <;> rfl

@[simp] theorem dispatched_frameOuts (f : DecodedFrame) (rep : Bool) :
    dispatched (frameOuts f rep) = if rep then [] else [f.command] := by
  cases rep <;> rfl

/-- Under either verdict TICK.FRAME ends with the frame held: a repeated frame is already held. -/
theorem tickFrame_eq (b : Block) :
    tickFrame b =
      { block := listenHolding (decodeFrame b.acc).command (decodeFrame b.acc).toggle
        outs := frameOuts (decodeFrame b.acc) (repeatVerdict (decodeFrame b.acc) b) } := by
  cases verdict : repeatVerdict (decodeFrame b.acc) b with
  | false =>
    rw [tickFrame_of_new (by simp [← repeatVerdict_decodeFrame_iff, verdict])]
    rfl
  | true =>
    obtain ⟨held, command, toggle⟩ := (repeatVerdict_iff _ b).mp verdict
    rw [tickFrame_of_repeat ((repeatVerdict_decodeFrame_iff b).mp verdict), command, toggle, held]
    simp [listenHolding, frameOuts, command, toggle]

theorem tickFrame_withEdgePend (b : Block) (pend : Bool) :
    tickFrame { b with edgePend := pend } = tickFrame b := by
  rw [tickFrame_eq, tickFrame_eq]
  rfl

theorem eq_of_exec_next {i : Instr} {s t : State} (answered : exec i s = .next t) :
    t = { s with
      block := (effectOf i s.block).block, outputs := s.outputs ++ (effectOf i s.block).outs } :=
  Host.Outcome.next.inj (answered.symm.trans (exec_eq_next i s))

/-- R16: an event's effect on states that differ only in EDGE_PEND. -/
theorem effectOf_withEdgePend (i : Instr) (b : Block) (pend : Bool) :
    ∃ pend', effectOf i { b with edgePend := pend } =
      { block := { (effectOf i b).block with edgePend := pend' }
        outs := (effectOf i b).outs } := by
  rcases effectOf_cases i b with ⟨rfl, -⟩ | ⟨⟨rfl, enabled⟩, arm⟩ | ⟨⟨rfl, masked⟩, latch⟩ |
    ⟨⟨level, rfl⟩, stopped, ignored⟩ | ⟨level, rfl, run, more, sample⟩ |
    ⟨⟨⟨level, rfl⟩, run, done⟩, frame⟩ | ⟨rfl, -⟩
  · exact ⟨pend, rfl⟩
  · exact ⟨false, by rw [arm]; exact fallEffect_of_enabled enabled⟩
  · exact ⟨true, by rw [latch]; exact fallEffect_of_masked masked⟩
  · exact ⟨pend, by rw [ignored]; exact tickEffect_of_stopped level stopped⟩
  · exact ⟨pend, by rw [sample]; exact tickEffect_of_sampling level run more⟩
  · refine ⟨false, ?_⟩
    rw [frame, ← tickFrame_withEdgePend b pend]
    exact tickEffect_of_full level run done
  · exact ⟨false, rfl⟩

/-- Settles O20: what the event does to the registers is its effect. -/
theorem edgePendChoosesNothing : Obligations.EdgePendChoosesNothing := by
  intro i s t pend answered
  obtain rfl := eq_of_exec_next answered
  obtain ⟨pend', effect⟩ := effectOf_withEdgePend i s.block pend
  exact ⟨pend', by rw [exec_eq_next, effect]⟩

/-- Settles O30: with TICK.SAMPLE excluded, the routing leaves TICK.IGNORED and TICK.FRAME. -/
theorem levelReadOnlyBySampling : Obligations.LevelReadOnlyBySampling := by
  intro level level' s notSamples
  rcases Bool.eq_false_or_eq_true s.block.tmrEn with run | stopped
  · have done : 13 ≤ s.block.cnt.toNat :=
      Nat.not_lt.mp fun more => notSamples ⟨⟨level, rfl⟩, run, more⟩
    rw [exec_tick_of_full level run done, exec_tick_of_full level' run done]
  · rw [exec_tick_of_stopped level stopped, exec_tick_of_stopped level' stopped]

theorem exec_of_frames {i : Instr} {s : State} (frames : Frames i s.block) :
    exec i s = .next { s with
      block := (tickFrame s.block).block, outputs := s.outputs ++ (tickFrame s.block).outs } := by
  rw [exec_eq_next, effectOf_of_frames frames]

/-- Settles O36: only the command and the toggle of the frame reach the registers, the verdict and
DISPATCH. -/
theorem addressDoesNotDecideDispatch : Obligations.AddressDoesNotDecideDispatch := by
  intro level s t t' acc' frames sameCommand sameToggle answered answered'
  obtain ⟨-, commandMask, toggleMask⟩ := frameFieldsOfAnyWidth 16 s.block.acc
  obtain ⟨-, commandMask', toggleMask'⟩ := frameFieldsOfAnyWidth 16 acc'
  have command : (decodeFrame acc').command = (decodeFrame s.block.acc).command := by
    rw [← BitVec.toNat_inj, commandMask, commandMask', sameCommand]
  have toggle : (decodeFrame acc').toggle = (decodeFrame s.block.acc).toggle := by
    rw [← BitVec.toNat_inj, toggleMask, toggleMask', sameToggle]
  have verdict : repeatVerdict (decodeFrame acc') { s.block with acc := acc' } =
      repeatVerdict (decodeFrame s.block.acc) s.block := by
    simp only [repeatVerdict, command, toggle]
  rw [exec_of_frames frames] at answered
  rw [exec_of_frames (s := { s with block := { s.block with acc := acc' } }) frames] at answered'
  obtain rfl := Host.Outcome.next.inj answered
  obtain rfl := Host.Outcome.next.inj answered'
  simp only [tickFrame_eq, verdict, command, toggle, dispatched_append, frameCount_append,
    dispatched_frameOuts, frameCount_frameOuts, and_self]

/-! ## What each event may write -/

/-- TICK.FRAME of a repeated frame keeps RepeatState (R64). -/
theorem tickFrame_keeps_repeatState {b : Block} (repeats : RepeatsLast b) :
    (tickFrame b).block.lastCmd = b.lastCmd ∧ (tickFrame b).block.lastTog = b.lastTog ∧
      (tickFrame b).block.lastValid = b.lastValid := by
  rw [tickFrame_of_repeat repeats]
  exact ⟨rfl, rfl, rfl⟩

/-- Settles O18: operation by operation, the registers it does not write are those of the state
before. -/
theorem registersWrittenOnlyAsTabled : Obligations.RegistersWrittenOnlyAsTabled := by
  intro i s t answered
  obtain rfl := eq_of_exec_next answered
  rcases effectOf_cases i s.block with ⟨-, nop⟩ | ⟨arms, arm⟩ | ⟨latches, latch⟩ |
    ⟨-, -, ignored⟩ | ⟨level, tick, run, more, sample⟩ | ⟨frames, frame⟩ | ⟨reset, -⟩
  · simp [nop]
  · rw [arm]
    refine ⟨fun _ => .inl arms, fun _ => .inl arms, fun _ => .inl arms, fun _ => .inl arms,
      fun _ => .inl arms, by simp, rfl⟩
  · rw [latch]
    refine ⟨absurd rfl, absurd rfl, absurd rfl, fun _ => .inr (.inl latches), absurd rfl,
      by simp, rfl⟩
  · simp [ignored]
  · have samples : Samples i s.block := ⟨⟨level, tick⟩, run, more⟩
    rw [sample]
    refine ⟨fun _ => .inr (.inl samples), fun _ => .inr (.inl samples), absurd rfl, absurd rfl,
      absurd rfl, by simp, rfl⟩
  · refine ⟨fun _ => .inr (.inr (.inl frames)), fun _ => .inr (.inr (.inl frames)),
      fun _ => .inr (.inl frames), fun _ => .inr (.inr (.inl frames)), fun _ => .inr (.inl frames),
      fun changed => .inl ⟨frames, fun repeats => ?_⟩, rfl⟩
    simp only [frame, tickFrame_keeps_repeatState repeats, ne_eq, not_true_eq_false,
      or_self] at changed
  · simp [reset]

/-- Settles O24: of the writers of TMR_EN only FALL.ARM leaves it set, and of the writers of EDGE_EN
only TICK.FRAME and RESET do. -/
theorem oneSequenceAtATime : Obligations.OneSequenceAtATime := by
  intro i s t answered
  obtain ⟨-, -, edgeEn, -, tmrEn, -, -⟩ := registersWrittenOnlyAsTabled i s t answered
  refine ⟨fun stopped started => ?_, fun masked enabled => ?_, fun masked fall => ?_⟩
  · rcases tmrEn (by simp [stopped, started]) with arms | ⟨-, run, -⟩ | rfl
    · exact arms
    · simp [stopped] at run
    · rw [exec_reset] at answered
      obtain rfl := Host.Outcome.next.inj answered
      contradiction
  · rcases edgeEn (by simp [masked, enabled]) with ⟨-, armed⟩ | frames | rfl
    · simp [masked] at armed
    · rw [exec_of_frames frames] at answered
      obtain rfl := Host.Outcome.next.inj answered
      exact ⟨.inl frames, rfl, rfl⟩
    · rw [exec_reset] at answered
      obtain rfl := Host.Outcome.next.inj answered
      exact ⟨.inr rfl, rfl, rfl⟩
  · rw [fall, exec_fall_of_masked masked] at answered
    obtain rfl := Host.Outcome.next.inj answered
    exact ⟨rfl, rfl, rfl, rfl⟩

/-! ## The accumulator's step -/

/-- Settles O32: a zero accumulator is not shifted, and shifting it changes nothing. -/
theorem shiftGuardIsNeverSeen : Obligations.ShiftGuardIsNeverSeen := by
  intro n acc level
  rw [shiftIn_eq, sampleBit_eq]
  split_ifs with zero
  · simp [zero]
  · rfl

/-- In a sequence with a sample still to take, ACC has room for its double (R61). -/
theorem acc_lt_of_sampling {b : Block} (seq : SequenceInv b) (more : b.cnt.toNat < 13) :
    b.acc.toNat < 2 ^ 13 := by
  obtain ⟨-, -, -, -, upper⟩ := seq
  exact lt_of_lt_of_le upper (Nat.pow_le_pow_right (by decide) more)

theorem tickSample_cnt_toNat (level : Bit) {b : Block} (more : b.cnt.toNat < 13) :
    (tickSample level b).block.cnt.toNat = b.cnt.toNat + 1 := by
  rw [tickSample_block]
  bv_omega

theorem tickSample_acc_toNat (level : Bit) {b : Block} (room : b.acc.toNat < 2 ^ 13) :
    (tickSample level b).block.acc.toNat = 2 * b.acc.toNat + level.toNat := by
  rw [tickSample_block, shiftIn_toNat level b.acc (by omega), sampleBit_eq]

/-! ## The invariant of R23 -/

/-- R23 without its third bullet: the block listens, or a sequence is in flight. -/
abbrev ListenOrSequence (b : Block) : Prop := ListenInv b ∨ SequenceInv b

theorem sequenceInv_of_tmrEn {b : Block} (inv : ListenOrSequence b) (run : b.tmrEn = true) :
    SequenceInv b := by
  rcases inv with ⟨-, stopped, -⟩ | seq
  · rw [stopped] at run
    contradiction
  · exact seq

theorem sequenceInv_of_masked {b : Block} (inv : ListenOrSequence b) (masked : b.edgeEn = false) :
    SequenceInv b := by
  rcases inv with ⟨enabled, -⟩ | seq
  · rw [masked] at enabled
    contradiction
  · exact seq

theorem listenInv_reset : ListenInv Block.reset := ⟨rfl, rfl, rfl, rfl, rfl⟩

theorem inv_reset : Inv Block.reset := ⟨.inl listenInv_reset, fun _ => ⟨rfl, rfl⟩⟩

/-- Settles O39: R24's values are LISTEN's, with RepeatState clear. -/
theorem resetSatisfiesInv : Obligations.ResetSatisfiesInv := ⟨inv_reset, listenInv_reset⟩

theorem listenInv_listenHolding (command : Cmd) (toggle : Bit) :
    ListenInv (listenHolding command toggle) := ⟨rfl, rfl, rfl, rfl, rfl⟩

theorem sequenceInv_fallArm (b : Block) : SequenceInv (fallArm b).block :=
  ⟨rfl, rfl, Nat.zero_le _, Nat.le_refl 1, Nat.lt_succ_self 1⟩

/-- R61: one sample more doubles the interval in which ACC lies. -/
theorem sequenceInv_tickSample (level : Bit) {b : Block} (seq : SequenceInv b)
    (more : b.cnt.toNat < 13) : SequenceInv (tickSample level b).block := by
  have room := acc_lt_of_sampling seq more
  obtain ⟨masked, run, -, lower, upper⟩ := seq
  refine ⟨masked, run, ?count, ?lower, ?upper⟩
  all_goals rw [tickSample_cnt_toNat level more]
  case count => exact more
  case lower =>
    rw [tickSample_acc_toNat level room, Nat.pow_succ]
    omega
  case upper =>
    rw [tickSample_acc_toNat level room, Nat.pow_succ]
    omega

theorem effectOf_keeps_listenOrSequence (i : Instr) {b : Block} (inv : ListenOrSequence b) :
    ListenOrSequence (effectOf i b).block := by
  rcases effectOf_cases i b with ⟨-, nop⟩ | ⟨-, arm⟩ | ⟨⟨-, masked⟩, latch⟩ |
    ⟨-, -, ignored⟩ | ⟨level, -, run, more, sample⟩ | ⟨-, frame⟩ | ⟨-, reset⟩
  · rwa [nop]
  · rw [arm]
    exact .inr (sequenceInv_fallArm b)
  · have seq := sequenceInv_of_masked inv masked
    rw [latch]
    exact .inr seq
  · rwa [ignored]
  · rw [sample]
    exact .inr (sequenceInv_tickSample level (sequenceInv_of_tmrEn inv run) more)
  · rw [frame, tickFrame_eq]
    exact .inl (listenInv_listenHolding _ _)
  · rw [reset]
    exact .inl listenInv_reset

/-- R23, third bullet: RepeatState is written only together with LAST_VALID = 1, or cleared. -/
theorem effectOf_keeps_repeatInv (i : Instr) {b : Block} (inv : RepeatInv b) :
    RepeatInv (effectOf i b).block := by
  rcases effectOf_cases i b with ⟨-, nop⟩ | ⟨-, arm⟩ | ⟨-, latch⟩ | ⟨-, -, ignored⟩ |
    ⟨level, -, -, -, sample⟩ | ⟨-, frame⟩ | ⟨-, reset⟩
  · rwa [nop]
  · rwa [arm]
  · rwa [latch]
  · rwa [ignored]
  · rwa [sample]
  · rw [frame, tickFrame_eq]
    exact nofun
  · rw [reset]
    exact fun _ => ⟨rfl, rfl⟩

theorem effectOf_keeps_inv (i : Instr) {b : Block} (inv : Inv b) : Inv (effectOf i b).block :=
  ⟨effectOf_keeps_listenOrSequence i inv.1, effectOf_keeps_repeatInv i inv.2⟩

/-- Settles O40: an idle step keeps the registers, and every event keeps the invariant. -/
theorem stepKeepsInv : Obligations.StepKeepsInv := by
  intro s t inv answered
  rcases step_next_cases answered with ⟨-, rfl⟩ | ⟨i, rest, -, rfl⟩
  · exact inv
  · exact effectOf_keeps_inv i inv

theorem runs_keeps_inv {k : Nat} {s t : State} (inv : Inv s.block) (answered : runs k s = .next t) :
    Inv t.block := by
  induction k generalizing s with
  | zero =>
    obtain rfl := Host.Outcome.next.inj answered
    exact inv
  | succ k ih =>
    obtain ⟨u, first, after⟩ := runs_succ_next answered
    exact ih (stepKeepsInv s u inv first) after

/-- The two source enables are opposite under the invariant (R73). -/
theorem edgeEn_eq_not_tmrEn {b : Block} (inv : ListenOrSequence b) : b.edgeEn = !b.tmrEn := by
  rcases inv with ⟨enabled, stopped, -⟩ | ⟨masked, run, -⟩
  · rw [enabled, stopped]; rfl
  · rw [masked, run]; rfl

/-- Settles O17: the levels are the enables by definition. -/
theorem outputLevelsAreEnables : Obligations.OutputLevelsAreEnables :=
  fun _ => ⟨rfl, rfl, fun inv => edgeEn_eq_not_tmrEn inv.1⟩

theorem cnt_le_of_listenOrSequence {b : Block} (inv : ListenOrSequence b) : b.cnt.toNat ≤ 13 := by
  rcases inv with ⟨-, -, cnt, -⟩ | ⟨-, -, count, -⟩
  · rw [cnt]; decide
  · exact count

/-- An event that arms finds CNT at 0. -/
theorem cnt_eq_zero_of_edgeEn {b : Block} (inv : ListenOrSequence b) (enabled : b.edgeEn = true) :
    b.cnt = 0 := by
  rcases inv with ⟨-, -, cnt, -⟩ | ⟨masked, -⟩
  · exact cnt
  · rw [masked] at enabled
    contradiction

theorem acc_ne_zero_of_sequenceInv {b : Block} (seq : SequenceInv b) : b.acc ≠ 0 := by
  obtain ⟨-, -, -, lower, -⟩ := seq
  intro zero
  rw [zero] at lower
  exact absurd lower (Nat.not_le.mpr (Nat.two_pow_pos _))

/-- Settles O41: the runs keep the invariant, and R23's conclusions follow from it. -/
theorem reachableStatesAreSound : Obligations.ReachableStatesAreSound := by
  intro words k t answered
  obtain ⟨inv, held⟩ := runs_keeps_inv inv_reset answered
  have enables := edgeEn_eq_not_tmrEn inv
  refine ⟨inv, ?oneOnly, held, ?phase, cnt_le_of_listenOrSequence inv,
    fun run => acc_ne_zero_of_sequenceInv (sequenceInv_of_tmrEn inv run), enables⟩
  case oneOnly =>
    rintro ⟨⟨enabled, -⟩, masked, -⟩
    rw [masked] at enabled
    contradiction
  case phase =>
    rw [ne_eq, phase_eq_anomalous_iff, enables]
    exact Bool.not_ne_self t.block.tmrEn

/-- Settles O31: the invariant bounds ACC by CNT, so that nothing is truncated. -/
theorem samplingNeverOverflows : Obligations.SamplingNeverOverflows := by
  intro level s inv run more
  have room := acc_lt_of_sampling (sequenceInv_of_tmrEn inv.1 run) more
  refine ⟨_, exec_tick_of_sampling level run more, tickSample_cnt_toNat level more,
    (tickSample_cnt_toNat level more).trans_le more, tickSample_acc_toNat level room, ?bound⟩
  case bound =>
    change (tickSample level s.block).block.acc.toNat < 2 ^ 14
    rw [tickSample_acc_toNat level room]
    omega

/-! ## Runs of whole traces -/

/-- The effects of a trace's events, one after the other, as one effect. -/
def effectOfTrace : List Instr → Block → Effect
  | [], b => unchanged b
  | i :: is, b =>
    { block := (effectOfTrace is (effectOf i b).block).block
      outs := (effectOf i b).outs ++ (effectOfTrace is (effectOf i b).block).outs }

@[simp] theorem effectOfTrace_nil (b : Block) : effectOfTrace [] b = unchanged b := rfl

@[simp] theorem effectOfTrace_cons_block (i : Instr) (is : List Instr) (b : Block) :
    (effectOfTrace (i :: is) b).block = (effectOfTrace is (effectOf i b).block).block := rfl

@[simp] theorem effectOfTrace_cons_outs (i : Instr) (is : List Instr) (b : Block) :
    (effectOfTrace (i :: is) b).outs =
      (effectOf i b).outs ++ (effectOfTrace is (effectOf i b).block).outs := rfl

theorem effectOfTrace_append (is js : List Instr) (b : Block) :
    effectOfTrace (is ++ js) b =
      { block := (effectOfTrace js (effectOfTrace is b).block).block
        outs :=
          (effectOfTrace is b).outs ++ (effectOfTrace js (effectOfTrace is b).block).outs } := by
  induction is generalizing b with
  | nil => rfl
  | cons i is ih => simp only [List.cons_append, effectOfTrace, ih, List.append_assoc]

/-- A run over the words of a trace is the trace's effect, completed; the words behind them still
wait. -/
theorem runs_encodeTrace {s : State} {events : List Instr} {rest : List EventWord}
    (waiting : s.inputs = encodeTrace events ++ rest) :
    runs events.length s =
      complete (effectOfTrace events s.block) { s with inputs := rest } := by
  induction events generalizing s with
  | nil =>
    obtain rfl : s.inputs = rest := waiting
    simp
  | cons i is ih =>
    have first := (step_of_encoded (s := s) waiting).trans (exec_eq_next i _)
    rw [List.length_cons, runs_of_next _ first, ih rfl]
    simp

/-- A run that takes only the first words of a trace is the effect of those events. -/
theorem runs_take {s : State} {events : List Instr} {rest : List EventWord} {k : Nat}
    (waiting : s.inputs = encodeTrace events ++ rest) (within : k ≤ events.length) :
    runs k s =
      complete (effectOfTrace (events.take k) s.block)
        { s with inputs := encodeTrace (events.drop k) ++ rest } := by
  have split : s.inputs =
      encodeTrace (events.take k) ++ (encodeTrace (events.drop k) ++ rest) := by
    rw [waiting, ← List.append_assoc, ← encodeTrace_append, List.take_append_drop]
  simpa only [List.length_take_of_le within] using runs_encodeTrace split

/-! ## NOPs, and a sequence that is given no TICK -/

/-- R69: a NOP is the identity of a trace's effect. -/
theorem effectOfTrace_filter_nop (events : List Instr) (b : Block) :
    effectOfTrace (events.filter (· ≠ .nop)) b = effectOfTrace events b := by
  induction events generalizing b with
  | nil => rfl
  | cons i is ih =>
    by_cases nop : i = .nop
    · rw [List.filter_cons_of_neg (by simp [nop]), ih, nop]
      rfl
    · rw [List.filter_cons_of_pos (by simp [nop]), effectOfTrace, effectOfTrace, ih]

/-- Settles O49: both runs are their traces' effects, which are the same. -/
theorem nopsChangeNoOutcome : Obligations.NopsChangeNoOutcome := by
  intro s events rest
  rw [runs_encodeTrace rfl, runs_encodeTrace rfl, effectOfTrace_filter_nop]

/-- R80: with the sampler running, NOPs and FALLs can only latch an edge. -/
theorem effectOfTrace_of_masked {events : List Instr} {b : Block} (masked : b.edgeEn = false)
    (silent : ∀ i ∈ events, i = .nop ∨ i = .fall) :
    effectOfTrace events b =
      { block := { b with edgePend := b.edgePend || events.contains .fall }, outs := [] } := by
  induction events generalizing b with
  | nil => simp [unchanged]
  | cons i is ih =>
    obtain ⟨first, later⟩ := List.forall_mem_cons.mp silent
    rcases first with rfl | rfl
    · rw [effectOfTrace, effectOf, unchanged_block, unchanged_outs, ih masked later]
      simp
    · rw [effectOfTrace, effectOf, fallEffect_of_masked masked, fallLatch_block, fallLatch_outs,
        ih (by exact masked) later]
      simp

/-- Settles O48: the run is the effect of its NOPs and FALLs while edges are masked. -/
theorem sequenceHangsWithoutTicks : Obligations.SequenceHangsWithoutTicks := by
  intro s events rest masked _ silent waiting
  rw [runs_encodeTrace waiting, effectOfTrace_of_masked masked silent, complete_eq,
    List.append_nil]

/-! ## A sequence in flight: counting its ticks -/

theorem tickCount_append (is js : List Instr) :
    tickCount (is ++ js) = tickCount is + tickCount js := by
  induction is with
  | nil => simp [tickCount]
  | cons i is ih => cases i <;> simp [tickCount, ih, Nat.add_right_comm]

theorem tickCount_take_le (k : Nat) (is : List Instr) : tickCount (is.take k) ≤ tickCount is := by
  have split := tickCount_append (is.take k) (is.drop k)
  rw [List.take_append_drop] at split
  omega

/-- Until CNT would pass 13, a sequence emits nothing, and each of its TICKs counts one (R54). -/
theorem effectOfTrace_while_sampling {events : List Instr} {b : Block} (masked : b.edgeEn = false)
    (run : b.tmrEn = true) (noReset : .reset ∉ events)
    (room : b.cnt.toNat + tickCount events ≤ 13) :
    (effectOfTrace events b).outs = [] ∧ (effectOfTrace events b).block.tmrEn = true ∧
      (effectOfTrace events b).block.cnt.toNat = b.cnt.toNat + tickCount events := by
  induction events generalizing b with
  | nil => exact ⟨rfl, run, rfl⟩
  | cons i is ih =>
    obtain ⟨notReset, later⟩ := List.ne_and_not_mem_of_not_mem_cons noReset
    cases i with
    | nop => exact ih masked run later room
    | fall =>
      rw [effectOfTrace, effectOf, fallEffect_of_masked masked]
      exact ih (b := (fallLatch b).block) masked run later room
    | tick level =>
      rw [tickCount] at room ⊢
      have more : b.cnt.toNat < 13 := by omega
      have count := tickSample_cnt_toNat level more
      rw [effectOfTrace, effectOf, tickEffect_of_sampling level run more]
      have rest := ih (b := (tickSample level b).block) masked run later (by omega)
      rwa [count, Nat.add_assoc, Nat.add_comm 1] at rest
    | reset => exact absurd rfl notReset

/-- A sequence that FALL.ARM starts, up to its 13th TICK. -/
theorem effectOfTrace_fall_of_listen {events : List Instr} {b : Block} (listen : ListenInv b)
    (noReset : .reset ∉ events) (room : tickCount events ≤ 13) :
    (effectOfTrace (.fall :: events) b).outs = [.timerStart] ∧
      (effectOfTrace (.fall :: events) b).block.tmrEn = true ∧
      (effectOfTrace (.fall :: events) b).block.cnt.toNat = tickCount events := by
  obtain ⟨outs, run, count⟩ := effectOfTrace_while_sampling (b := (fallArm b).block) rfl rfl
    noReset ((Nat.zero_add _).trans_le room)
  rw [effectOfTrace, effectOf, fallEffect_of_enabled listen.1]
  exact ⟨by rw [outs]; rfl, run, count.trans (Nat.zero_add _)⟩

/-- Until its 14th TICK a sequence from LISTEN emits no FRAME. -/
theorem frameCount_of_unfinished {events : List Instr} {b : Block} (listen : ListenInv b)
    (noReset : .reset ∉ events) (room : tickCount events ≤ 13) (k : Nat) :
    frameCount (effectOfTrace ((.fall :: events).take k) b).outs = 0 := by
  cases k with
  | zero => rfl
  | succ k =>
    obtain ⟨outs, -, -⟩ := effectOfTrace_fall_of_listen listen
      (fun reset => noReset (List.mem_of_mem_take reset))
      ((tickCount_take_le k events).trans room)
    rw [List.take_succ_cons, outs]
    rfl

/-- The 14th TICK frames, whatever the 13 before carried. -/
theorem effectOfTrace_whole_sequence {events : List Instr} {b : Block} (level : Bit)
    (listen : ListenInv b) (noReset : .reset ∉ events) (ticks : tickCount events = 13) :
    ListenInv (effectOfTrace (.fall :: events ++ [.tick level]) b).block ∧
      frameCount (effectOfTrace (.fall :: events ++ [.tick level]) b).outs = 1 := by
  obtain ⟨outs, run, count⟩ := effectOfTrace_fall_of_listen listen noReset ticks.le
  have frame := tickEffect_of_full level run (ticks.symm.trans count.symm).le
  rw [effectOfTrace_append, effectOfTrace, effectOf, frame, tickFrame_eq, outs]
  refine ⟨listenInv_listenHolding _ _, ?_⟩
  rw [effectOfTrace_nil, unchanged_outs, List.append_nil, frameCount_append, frameCount_frameOuts]
  rfl

/-- Settles O44: the runs up to the 14th TICK are the effects of the trace's first events, and the
last run that of the whole sequence. -/
theorem oneFrameAtFourteenthTick : Obligations.OneFrameAtFourteenthTick := by
  intro s between level rest listen noReset ticks waiting
  refine ⟨fun k within => ?unfinished, ?finished⟩
  case unfinished =>
    have before : s.inputs =
        encodeTrace (.fall :: between) ++ (encodeTrace [.tick level] ++ rest) := by
      rw [waiting, encodeTrace_append, List.append_assoc]
    refine ⟨_, runs_take before within, ?_⟩
    rw [frameCount_append, frameCount_of_unfinished listen noReset ticks.le k, Nat.add_zero]
  case finished =>
    have answered := runs_encodeTrace waiting
    obtain ⟨listens, framed⟩ := effectOfTrace_whole_sequence level listen noReset ticks
    rw [List.length_append, List.length_cons] at answered
    exact ⟨_, answered, rfl, listens, by rw [frameCount_append, framed]⟩

/-- One event's share in the account of TICKs: a TICK adds one to CNT, or takes the 13 from it with
one FRAME. -/
theorem effectOf_tick_account {i : Instr} {b : Block} (inv : ListenOrSequence b)
    (notReset : i ≠ .reset) (duty : ∀ level, i = .tick level → b.tmrEn = true) :
    b.cnt.toNat + tickCount [i] =
      14 * frameCount (effectOf i b).outs + (effectOf i b).block.cnt.toNat := by
  rcases effectOf_cases i b with ⟨rfl, nop⟩ | ⟨⟨rfl, enabled⟩, arm⟩ | ⟨⟨rfl, -⟩, latch⟩ |
    ⟨⟨level, rfl⟩, stopped, -⟩ | ⟨level, rfl, -, more, sample⟩ |
    ⟨⟨⟨level, rfl⟩, -, done⟩, frame⟩ | ⟨reset, -⟩
  · simp [nop, tickCount, frameCount]
  · simp [arm, cnt_eq_zero_of_edgeEn inv enabled, tickCount, frameCount]
  · simp [latch, tickCount, frameCount]
  · have run := duty level rfl
    rw [stopped] at run
    contradiction
  · rw [sample, tickSample_cnt_toNat level more, tickSample_outs]
    simp [tickCount, frameCount]
  · have full : b.cnt.toNat = 13 := le_antisymm (cnt_le_of_listenOrSequence inv) done
    rw [frame, tickFrame_cnt, full, tickFrame_eq, frameCount_frameOuts]
    rfl
  · exact absurd reset notReset

/-- The host's duty at the first event of a trace and in the state after it (R79). -/
theorem ticksOnlyWhileRunning_cons {s : State} {i : Instr} {is : List Instr}
    (duty : ticksOnlyWhileRunning s (i :: is) = true) :
    (∀ level, i = .tick level → s.block.tmrEn = true) ∧
      ticksOnlyWhileRunning { s with
        block := (effectOf i s.block).block
        outputs := s.outputs ++ (effectOf i s.block).outs } is = true := by
  unfold ticksOnlyWhileRunning at duty
  rw [exec_eq_next] at duty
  obtain ⟨allowed, later⟩ := (Bool.and_eq_true_iff).mp duty
  refine ⟨?_, later⟩
  rintro level rfl
  exact allowed

/-- The account of TICKs over a whole trace. -/
theorem effectOfTrace_tick_account {events : List Instr} {s : State}
    (inv : ListenOrSequence s.block) (noReset : .reset ∉ events)
    (duty : ticksOnlyWhileRunning s events = true) :
    s.block.cnt.toNat + tickCount events =
      14 * frameCount (effectOfTrace events s.block).outs +
        (effectOfTrace events s.block).block.cnt.toNat := by
  induction events generalizing s with
  | nil => simp [tickCount, frameCount]
  | cons i is ih =>
    obtain ⟨notReset, later⟩ := List.ne_and_not_mem_of_not_mem_cons noReset
    obtain ⟨now, after⟩ := ticksOnlyWhileRunning_cons duty
    have first := effectOf_tick_account inv (Ne.symm notReset) now
    have rest := ih (effectOf_keeps_listenOrSequence i inv) later after
    rw [effectOfTrace_cons_outs, effectOfTrace_cons_block, frameCount_append,
      ← List.singleton_append, tickCount_append]
    dsimp only at rest
    omega

/-- Settles O47: in LISTEN the account begins at CNT = 0. -/
theorem ticksAccountForFrames : Obligations.TicksAccountForFrames := by
  intro s events rest listen noReset duty waiting
  have account := effectOfTrace_tick_account (.inl listen) noReset duty
  obtain ⟨-, -, cnt, -⟩ := listen
  refine ⟨_, _, runs_encodeTrace waiting, rfl, rfl, ?_⟩
  rw [← account, cnt]
  exact (Nat.zero_add _).symm

/-! ## Both orders of an edge and a tick -/

/-- Settles O50: FALL.LATCH's flag is lost in TICK.FRAME, and after TICK.FRAME the edges are
enabled, so that FALL arms. -/
theorem bothOrdersOfEdgeAndTick : Obligations.BothOrdersOfEdgeAndTick := by
  intro s level full
  obtain ⟨masked, run, done⟩ := (phase_eq_full_iff s.block).mp full
  have fallFirst : effectOfTrace [.fall, .tick level] s.block = tickFrame s.block := by
    rw [effectOfTrace, effectOfTrace, effectOf, effectOf, fallEffect_of_masked masked,
      fallLatch_block, tickEffect_of_full level (by exact run) (by exact done),
      tickFrame_withEdgePend, effectOfTrace_nil, unchanged_block, unchanged_outs,
      fallLatch_outs, List.append_nil, List.nil_append]
  have tickFirst : effectOfTrace [.tick level, .fall] s.block =
      { block := (fallArm (tickFrame s.block).block).block
        outs := (tickFrame s.block).outs ++ [.timerStart] } := by
    rw [effectOfTrace, effectOfTrace, effectOf, effectOf, tickEffect_of_full level run done,
      fallEffect_of_enabled (tickFrame_edgeEn s.block)]
    simp
  have fallRun := runs_encodeTrace (s := { s with inputs := encodeTrace [.fall, .tick level] })
    (List.append_nil _).symm
  have tickRun := runs_encodeTrace (s := { s with inputs := encodeTrace [.tick level, .fall] })
    (List.append_nil _).symm
  rw [fallFirst] at fallRun
  rw [tickFirst] at tickRun
  refine ⟨_, _, fallRun, tickRun, ?listen, ?sampling, rfl, rfl, ?outputs⟩
  case listen =>
    rw [tickFrame_eq]
    exact listenInv_listenHolding _ _
  case sampling => exact (phase_eq_sampling_iff _).mpr ⟨rfl, rfl, Nat.zero_lt_succ 12⟩
  case outputs => exact (List.append_assoc _ _ _).symm

/-! ## The host's timing -/

/-- R85, with the period's error added up: tick i's window is that of the first tick, moved by the
error of i - 1 periods. -/
theorem tickInFirstHalf_iff (bitPeriod firstTickDelay tSample i : Nat) (counted : 1 ≤ i) :
    TickInFirstHalf bitPeriod firstTickDelay tSample i ↔
      (bitPeriod : Int) ≤
        2 * ((firstTickDelay : Int) + ((i : Int) - 1) * ((tSample : Int) - (bitPeriod : Int))) ∧
      (firstTickDelay : Int) + ((i : Int) - 1) * ((tSample : Int) - (bitPeriod : Int)) <
        (bitPeriod : Int) := by
  obtain ⟨j, rfl⟩ := Nat.exists_eq_add_of_le' counted
  have periods : (((j + 1 : Nat) : Int) - 1) * ((tSample : Int) - bitPeriod) =
      ((j * tSample : Nat) : Int) - ((j * bitPeriod : Nat) : Int) := by
    push_cast
    ring
  simp only [TickInFirstHalf, tickTime, Nat.add_sub_cancel, periods, Nat.add_one_mul]
  omega

/-- Settles O51: with equal periods no error adds up, so the window of the first tick is that of
all; the 14th tick comes 13 periods after the first. -/
theorem firstTickWindow : Obligations.FirstTickWindow := by
  refine ⟨tickInFirstHalf_iff, ?matched, fun _ _ => rfl⟩
  rintro bitPeriod firstTickDelay tSample ⟨rfl, early, late⟩ i counted
  rw [tickInFirstHalf_iff _ _ _ i counted, sub_self, mul_zero, add_zero]
  omega

/-! ## Samples shifted into an accumulator -/

/-- An accumulator of any width after samples, first one first. -/
def shiftInAll {n : Nat} (levels : List Bit) (acc : BitVec n) : BitVec n :=
  levels.foldl (fun acc level => shiftIn level acc) acc

@[simp] theorem shiftInAll_nil {n : Nat} (acc : BitVec n) : shiftInAll [] acc = acc := rfl

@[simp] theorem shiftInAll_cons {n : Nat} (level : Bit) (levels : List Bit) (acc : BitVec n) :
    shiftInAll (level :: levels) acc = shiftInAll levels (shiftIn level acc) := rfl

/-- Shifting in a sample commutes with cutting the accumulator to a smaller width. -/
theorem setWidth_shiftIn {n m : Nat} (narrower : m ≤ n) (level : Bit) (acc : BitVec n) :
    (shiftIn level acc).setWidth m = shiftIn level (acc.setWidth m) := by
  rw [shiftGuardIsNeverSeen, shiftGuardIsNeverSeen, BitVec.setWidth_or,
    BitVec.setWidth_shiftLeft_of_le narrower, BitVec.setWidth_setWidth_of_le level narrower]

theorem setWidth_shiftInAll {n m : Nat} (narrower : m ≤ n) (levels : List Bit) (acc : BitVec n) :
    (shiftInAll levels acc).setWidth m = shiftInAll levels (acc.setWidth m) := by
  induction levels generalizing acc with
  | nil => rfl
  | cons level levels ih =>
    rw [shiftInAll_cons, ih, setWidth_shiftIn narrower, shiftInAll_cons]

/-- The fields are the low 12 bits of the frame word (R57). -/
theorem decodeFrame_setWidth {n m : Nat} (wide : 12 ≤ m) (w : BitVec n) :
    decodeFrame (w.setWidth m) = decodeFrame w := by
  rw [decodeFrame, BitVec.extractLsb'_setWidth_of_le (by omega),
    BitVec.extractLsb'_setWidth_of_le (by omega), BitVec.extractLsb'_setWidth_of_le (by omega)]
  rfl

/-- Settles O43: both accumulators, cut to 13 bits, are the 13-bit accumulator. -/
theorem widthDoesNotChangeFields : Obligations.WidthDoesNotChangeFields := by
  intro n levels wide _
  have cut {k : Nat} (wide : 13 ≤ k) : decodeFrame (shiftInAll levels (1 : BitVec k)) =
      decodeFrame (shiftInAll levels (1 : BitVec 13)) := by
    rw [← decodeFrame_setWidth (m := 13) (by decide), setWidth_shiftInAll wide,
      show ((1 : BitVec k).setWidth 13) = 1 from BitVec.setWidth_ofNat_of_le wide 1]
  exact (cut wide).trans (cut (by decide)).symm

/-- Samples that fit the width, by numbers: each doubles the accumulator and adds its level. -/
theorem shiftInAll_toNat {n : Nat} (levels : List Bit) (acc : BitVec n)
    (fits : (acc.toNat + 1) * 2 ^ levels.length ≤ 2 ^ n) :
    (shiftInAll levels acc).toNat =
      levels.foldl (fun number level => 2 * number + level.toNat) acc.toNat := by
  induction levels generalizing acc with
  | nil => rfl
  | cons level levels ih =>
    have bit : level.toNat < 2 := level.isLt
    rw [List.length_cons, Nat.pow_succ', ← Nat.mul_assoc] at fits
    have room : (acc.toNat + 1) * 2 ≤ 2 ^ n :=
      (Nat.le_mul_of_pos_right _ (Nat.two_pow_pos _)).trans fits
    have step := shiftIn_toNat level acc (by omega)
    rw [sampleBit_eq] at step
    rw [shiftInAll_cons, ih, step, List.foldl_cons]
    rw [step]
    exact (Nat.mul_le_mul_right _ (by omega)).trans fits

/-- R58: ACC after a whole frame, the implicit start bit above the samples. -/
theorem shiftInAll_thirteen {levels : List Bit} (whole : levels.length = 13) :
    (shiftInAll levels (1 : Acc)).toNat =
      2 ^ 13 + ((List.range 13).map fun i => (levels.getD i 0).toNat * 2 ^ (12 - i)).sum := by
  rw [shiftInAll_toNat levels 1 (by rw [whole]; decide)]
  match levels, whole with
  | [_, _, _, _, _, _, _, _, _, _, _, _, _], _ =>
    simp only [List.sum_range_succ, List.range_zero, List.map_nil, List.sum_nil,
      List.getD_cons_zero, List.getD_cons_succ, List.foldl_cons, List.foldl_nil, BitVec.reduceToNat]
    omega

/-- R58: each field is a fixed run of samples, since the mask cuts off what is above it and the
shift what is below. -/
theorem decodeFrame_thirteen {levels : List Bit} (whole : levels.length = 13) :
    (decodeFrame (shiftInAll levels (1 : Acc))).toggle = levels.getD 1 0 ∧
      (decodeFrame (shiftInAll levels (1 : Acc))).address.toNat =
        ((List.range 5).map fun i => (levels.getD (2 + i) 0).toNat * 2 ^ (4 - i)).sum ∧
      (decodeFrame (shiftInAll levels (1 : Acc))).command.toNat =
        ((List.range 6).map fun i => (levels.getD (7 + i) 0).toNat * 2 ^ (5 - i)).sum := by
  rw [← BitVec.toNat_inj]
  simp only [decodeFrame, BitVec.extractLsb'_toNat, Nat.shiftRight_eq_div_pow,
    shiftInAll_thirteen whole]
  match levels, whole with
  | [_, _, _, _, _, _, _, _, _, _, _, _, _], _ =>
    simp only [List.sum_range_succ, List.range_zero, List.map_nil, List.sum_nil,
      List.getD_cons_zero, List.getD_cons_succ, Nat.reduceAdd]
    omega

/-! ## A whole frame -/

/-- Samples while CNT stays within 13 only fill the accumulator and count (R54). -/
theorem effectOfTrace_sampleTicks {levels : List Bit} {b : Block} (run : b.tmrEn = true)
    (room : b.cnt.toNat + levels.length ≤ 13) :
    effectOfTrace (sampleTicks levels) b =
      { block := { b with
          acc := shiftInAll levels b.acc
          cnt := b.cnt + BitVec.ofNat 4 levels.length }
        outs := [] } := by
  induction levels generalizing b with
  | nil => simp [sampleTicks, unchanged]
  | cons level levels ih =>
    rw [List.length_cons] at room ⊢
    have more : b.cnt.toNat < 13 := by omega
    have later := ih (b := (tickSample level b).block) run
      (by rw [tickSample_cnt_toNat level more]; omega)
    rw [sampleTicks, List.map_cons, ← sampleTicks, effectOfTrace, effectOf,
      tickEffect_of_sampling level run more, later, tickSample_outs, tickSample_block,
      Nat.add_comm levels.length 1, BitVec.ofNat_add, ← BitVec.add_assoc]
    rfl

/-- FALL.ARM and 13 samples: the state FULL, with the samples in ACC (R58). -/
theorem effectOfTrace_fall_sampleTicks {levels : List Bit} {b : Block} (enabled : b.edgeEn = true)
    (whole : levels.length = 13) :
    effectOfTrace (.fall :: sampleTicks levels) b =
      { block := { (fallArm b).block with acc := shiftInAll levels 1, cnt := 13 }
        outs := [.timerStart] } := by
  rw [effectOfTrace, effectOf, fallEffect_of_enabled enabled,
    effectOfTrace_sampleTicks (fallArm_tmrEn b) (by rw [whole]; exact Nat.le_refl 13), whole]
  rfl

/-- Settles O42: the run is FALL.ARM's effect and the samples', and ACC is their number. -/
theorem samplesFillAccumulator : Obligations.SamplesFillAccumulator := by
  intro s levels rest enabled whole waiting
  have answered := runs_encodeTrace waiting
  rw [effectOfTrace_fall_sampleTicks enabled whole, List.length_cons, sampleTicks, List.length_map,
    whole] at answered
  exact ⟨_, answered, rfl, (phase_eq_full_iff _).mpr ⟨rfl, rfl, Nat.le_refl 13⟩, rfl,
    shiftInAll_thirteen whole, decodeFrame_thirteen whole⟩

/-- FRAME13 from any state with EDGE_EN = 1: the frame its samples spell goes through SUPPRESS. -/
theorem effectOfTrace_frameEvents {levels : List Bit} {b : Block} {f : DecodedFrame}
    (enabled : b.edgeEn = true) (whole : levels.length = 13)
    (spelled : decodeFrame (shiftInAll levels (1 : Acc)) = f) :
    effectOfTrace (frameEvents levels) b =
      { block := listenHolding f.command f.toggle
        outs := .timerStart :: frameOuts f (repeatVerdict f b) } := by
  rw [frameEvents, ← List.cons_append, effectOfTrace_append,
    effectOfTrace_fall_sampleTicks enabled whole, effectOfTrace, effectOf,
    tickEffect_of_full 1 (by exact fallArm_tmrEn b) (by exact Nat.le_refl 13), tickFrame_eq,
    spelled, effectOfTrace_nil, unchanged_outs, List.append_nil]
  rfl

/-! ## SEND -/

/-- The bits of SEND's operands by numbers, highest first (R46). -/
theorem sendLevels_toNat (toggle : Bit) (address : Addr) (command : Cmd) :
    (sendLevels toggle address command).map BitVec.toNat =
      [1, toggle.toNat,
       address.toNat / 16 % 2, address.toNat / 8 % 2, address.toNat / 4 % 2,
       address.toNat / 2 % 2, address.toNat % 2,
       command.toNat / 32 % 2, command.toNat / 16 % 2, command.toNat / 8 % 2,
       command.toNat / 4 % 2, command.toNat / 2 % 2, command.toNat % 2] := by
  simp [sendLevels, BitVec.extractLsb'_toNat, Nat.shiftRight_eq_div_pow]

/-- Settles O6: SEND is FRAME13 of the levels of its operands. -/
theorem pseudoEventsExpandAsTabled : Obligations.PseudoEventsExpandAsTabled :=
  ⟨fun _ => rfl, fun _ => rfl, fun _ => rfl, fun toggle address command =>
    ⟨sendLevels toggle address command, rfl, rfl, sendLevels_toNat toggle address command⟩⟩

/-- The samples of SEND spell its operands. -/
theorem decodeFrame_sendLevels (toggle : Bit) (address : Addr) (command : Cmd) :
    decodeFrame (shiftInAll (sendLevels toggle address command) (1 : Acc)) =
      ⟨address, command, toggle⟩ := by
  obtain ⟨toggleField, addressField, commandField⟩ :=
    decodeFrame_thirteen (levels := sendLevels toggle address command) rfl
  rw [DecodedFrame.mk.injEq, ← BitVec.toNat_inj, ← BitVec.toNat_inj, toggleField, addressField,
    commandField]
  refine ⟨?_, ?_, rfl⟩
  all_goals
    simp only [sendLevels, List.sum_range_succ, List.range_zero, List.map_nil, List.sum_nil,
      List.getD_cons_zero, List.getD_cons_succ, BitVec.extractLsb'_toNat,
      Nat.shiftRight_eq_div_pow, Nat.reduceAdd]
    omega

theorem effectOfTrace_sendEvents {b : Block} (enabled : b.edgeEn = true) (toggle : Bit)
    (address : Addr) (command : Cmd) :
    effectOfTrace (sendEvents toggle address command) b =
      { block := listenHolding command toggle
        outs := .timerStart :: frameOuts ⟨address, command, toggle⟩
          (repeatVerdict ⟨address, command, toggle⟩ b) } :=
  effectOfTrace_frameEvents enabled rfl (decodeFrame_sendLevels toggle address command)

/-- RepeatState holds this command and toggle. -/
abbrev Holds (command : Cmd) (toggle : Bit) (b : Block) : Prop :=
  b.lastValid = true ∧ b.lastCmd = command ∧ b.lastTog = toggle

theorem repeatVerdict_iff_holds (address : Addr) (command : Cmd) (toggle : Bit) (b : Block) :
    repeatVerdict ⟨address, command, toggle⟩ b = true ↔ Holds command toggle b := by
  rw [repeatVerdict_iff, eq_comm (a := command), eq_comm (a := toggle)]

/-- Settles O45: the run is SEND's effect, under the verdict on its operands. -/
theorem sendComesOutAsFrame : Obligations.SendComesOutAsFrame := by
  intro s toggle address command rest listen waiting
  obtain ⟨enabled, -⟩ := listen
  have answered := runs_encodeTrace waiting
  rw [expandLine, effectOfTrace_sendEvents enabled] at answered
  refine ⟨_, repeatVerdict ⟨address, command, toggle⟩ s.block, answered,
    repeatVerdict_iff_holds address command toggle s.block, ?_⟩
  simp [frameOuts, listenHolding]

/-- R68: frames of one button, one after the other. -/
theorem effectOfTrace_heldButton (toggle : Bit) (command : Cmd) (addresses : List Addr) {b : Block}
    (listen : ListenInv b) :
    let e := effectOfTrace (expandTrace (addresses.map fun a => .send toggle a command)) b
    frameCount e.outs = addresses.length ∧ ListenInv e.block ∧
      dispatched e.outs = if addresses = [] ∨ Holds command toggle b then [] else [command] := by
  induction addresses generalizing b with
  | nil => exact ⟨rfl, listen, rfl⟩
  | cons address addresses ih =>
    obtain ⟨frames, listens, dispatches⟩ := ih (listenInv_listenHolding command toggle)
    have expanded : expandTrace ((address :: addresses).map fun a => .send toggle a command) =
        sendEvents toggle address command ++
          expandTrace (addresses.map fun a => .send toggle a command) := rfl
    rw [if_pos (.inr ⟨rfl, rfl, rfl⟩)] at dispatches
    rw [expanded, effectOfTrace_append, effectOfTrace_sendEvents listen.1]
    refine ⟨?frames, listens, ?dispatches⟩
    case frames => simp [frameCount_append, frames, frameCount, Nat.add_comm]
    case dispatches => simp [dispatched_append, dispatches, dispatched, repeatVerdict_iff_holds]

theorem length_expandTrace_sends (toggle : Bit) (command : Cmd) (addresses : List Addr) :
    (expandTrace (addresses.map fun a => .send toggle a command)).length =
      15 * addresses.length := by
  simp [expandTrace, List.length_flatMap, expandLine, sendEvents, frameEvents, sampleTicks,
    sendLevels, Function.comp_def, Nat.mul_comm]

/-- Settles O46: the run is the effect of the frames of one button. -/
theorem heldButtonDispatchesOnce : Obligations.HeldButtonDispatchesOnce := by
  intro s toggle command addresses rest listen waiting
  have answered := runs_encodeTrace waiting
  rw [length_expandTrace_sends] at answered
  obtain ⟨frames, listens, dispatches⟩ :=
    effectOfTrace_heldButton toggle command addresses listen
  exact ⟨_, _, answered, rfl, rfl, frames, listens, dispatches⟩

/-! ## The text of a trace -/

/-- A line's characters are read up to its line feed, and what is behind it is read by itself. -/
theorem parseTraceFrom_line {read line rest : List Char} {here later : List TraceLine}
    (oneLine : '\n' ∉ line) (parsedHere : parseLine (read ++ line) = some here)
    (parsedLater : parseTraceFrom [] rest = some later) :
    parseTraceFrom read (line ++ '\n' :: rest) = some (here ++ later) := by
  induction line generalizing read with
  | nil =>
    rw [List.append_nil] at parsedHere
    simp [parseTraceFrom, parsedHere, parsedLater]
  | cons c line ih =>
    obtain ⟨notEnd, inLine⟩ := List.ne_and_not_mem_of_not_mem_cons oneLine
    rw [List.append_cons] at parsedHere
    rw [List.cons_append, parseTraceFrom, if_neg (Ne.symm notEnd), ih inLine parsedHere]

theorem lineFeed_not_mem_eventText (i : Instr) : '\n' ∉ eventText i := by
  cases i with
  | tick level => rcases BitVec.eq_zero_or_eq_one level with rfl | rfl <;> decide
  | nop | fall | reset => decide

theorem parseLine_eventText (i : Instr) : parseLine (eventText i) = some [.event i] := by
  cases i with
  | tick level => rcases BitVec.eq_zero_or_eq_one level with rfl | rfl <;> rfl
  | nop | fall | reset => rfl

theorem parseTrace_traceText (events : List Instr) :
    parseTrace (traceText events) = some (events.map .event) := by
  induction events with
  | nil => rfl
  | cons i is ih =>
    exact parseTraceFrom_line (read := []) (lineFeed_not_mem_eventText i) (parseLine_eventText i) ih

theorem withoutComment_append_comment (line comment : List Char) :
    withoutComment (line ++ ';' :: comment) = withoutComment line := by
  induction line with
  | nil => rfl
  | cons c line ih =>
    simp only [withoutComment] at ih ⊢
    rw [List.cons_append, List.takeWhile_cons, List.takeWhile_cons, ih]

/-- Blanks begin no token. -/
theorem tokensFrom_of_blanks {blanks : List Char} (blank : ∀ c ∈ blanks, c = ' ' ∨ c = '\t') :
    tokensFrom [] blanks = [] := by
  induction blanks with
  | nil => rfl
  | cons c blanks ih =>
    obtain ⟨first, later⟩ := List.forall_mem_cons.mp blank
    rw [tokensFrom, if_pos first, if_pos List.isEmpty_nil, ih later]

theorem withoutComment_of_blanks {blanks : List Char}
    (blank : ∀ c ∈ blanks, c = ' ' ∨ c = '\t') : withoutComment blanks = blanks := by
  refine List.takeWhile_eq_self_iff.mpr fun c mem => ?_
  rcases blank c mem with rfl | rfl <;> rfl

/-- Settles O5: each line of the text is an event's, read by itself; a comment is cut off before the
tokens are read, and blanks hold none. -/
theorem traceTextReadsBack : Obligations.TraceTextReadsBack := by
  refine ⟨parseTrace_traceText, fun line comment => ?comment, fun blanks blank => ?blank⟩
  case comment => rw [parseLine, withoutComment_append_comment, ← parseLine]
  case blank => rw [parseLine, withoutComment_of_blanks blank, tokensFrom_of_blanks blank]

end Sys2Proof.Proofs
end
